-- ==== Sys2Proof/Word.lean ====
section
/-! DEFINITION. The word types of the codec (spec/00_scope.md R10, R11): `u8`, `u32` (also a
floating-point pattern, `f32`, and an `i32`) and `u64`. -/

namespace Sys2Proof

/-- `u8` of R11: a component of a packed pixel, an exponent field. -/
abbrev Byte := BitVec 8

/-- `u32` of R11; `f32` and `i32` are the same 32 bits read as a pattern or as a two's complement integer. -/
abbrev Word := BitVec 32

/-- `u64` of R11: the width of `CH`, `LEN` and `CNT` (R22). -/
abbrev DWord := BitVec 64

end Sys2Proof
end

