-- ==== Sys2Proof/Config.lean ====
section
/-! DEFINITION. The free values: what the spec leaves open and hands to the model as an argument
(spec/00_scope.md R9, spec/92_eei_decisions.md "Parameters left OPEN", spec/93_implementation_defined.md).
Every constant here is opaque and has no body, so no proof can see its value and a theorem holds
for every value it may have.

The buffer sizes `PB_SIZE` and `UF_SIZE` are per launch and stand in the state (Machine/State.lean).
`UF_ENDIAN`, `LANES` and `REG_MAP` are read by no rule (U15: a model may omit all three). -/

namespace Sys2Proof.Config

/-- The class of a non-finite pattern, the argument of `F2U8_NONFINITE` (R190). -/
inductive NonFinite where
  | nan
  | posInf
  | negInf
deriving DecidableEq, Repr

/-- `F2U8_NONFINITE` (R9, R190, U4): the byte stored for a NaN or an infinity, any byte for each class. -/
opaque f2u8NonFinite : NonFinite → Byte

/-- The bits `DEFAULT_NAN` (R9, R186, U3) is made from. Any 32 bits: `Machine.asNan` turns them into a
NaN pattern, and every NaN pattern comes from some bits. -/
opaque defaultNanBits : Word

/-- The bits of the NaN that `FMUL` gives when an operand is a NaN (R186: not further specified). -/
opaque mulNanBits : Word → Word → Word

/-- The bits of the NaN that `FDIV` gives when an operand is a NaN (R186: not further specified). -/
opaque divNanBits : Word → Word → Word

/-- What the `PB` element at an index holds before anything has written it (R62, U13: any value). -/
opaque initialPb : Nat → Byte

/-- What the `UF` element at an index holds before anything has written it (R62, U13: any value). -/
opaque initialUf : Nat → Word

/-- What a destination element of an operation abandoned by a reset holds in `PB` (U10: any value);
the first argument counts such resets. -/
opaque abandonedPb : Nat → Nat → Byte

/-- What a destination element of an operation abandoned by a reset holds in `UF` (U10: any value);
the first argument counts such resets. -/
opaque abandonedUf : Nat → Nat → Word

end Sys2Proof.Config
end

