-- ==== Sys2Proof/Syntax.lean ====
section
/-! DEFINITION. The operation set: the six rows of spec/opcode_table.json (spec/30_encoding.md R81).
A command carries no register numbers and no immediates (R80): every operand stands in a fixed
register (R84), so no constructor has an argument. -/

namespace Sys2Proof

/-- The six operations of the codec (spec/00_scope.md R3). -/
inductive Instr where
  /-- `BFX`, bit-field extract (R113). -/
  | bfx
  /-- `BFI`, bit-field insert (R114). -/
  | bfi
  /-- `FXS`, fast exponent scale (R121). -/
  | fxs
  /-- `FXE`, fast extract exponent (R131). -/
  | fxe
  /-- `DEC`, decode buffer (R140). -/
  | dec
  /-- `ENC`, encode buffer (R160). -/
  | enc
deriving DecidableEq, Repr

end Sys2Proof
end

