-- ==== Sys2Proof/WellFormed.lean ====
section
/-! DEFINITION. Which command words are well formed (spec/30_encoding.md R80 to R82). An `Instr` has
no operands, so every `Instr` is well formed as it stands; what can be ill formed is the 32-bit word
a host writes to `CMD`. The two checks below are the two clauses of R82. -/

namespace Sys2Proof

/-- `OP`, bits 2 to 0 of the command word (R80). -/
def opField (w : Word) : BitVec 3 := w.extractLsb' 0 3

/-- `RSV`, bits 31 to 3 of the command word (R80). -/
def rsvField (w : Word) : BitVec 29 := w.extractLsb' 3 29

/-- R82, second clause: every bit of `RSV` is zero. -/
def reservedBitsClear (w : Word) : Bool := rsvField w == 0

/-- R82, first clause: `OP` is neither `0b110` nor `0b111`. -/
def operationAssigned (w : Word) : Bool := decide ((opField w).toNat < 6)

/-- A command word that is not reserved in the sense of R82. -/
def commandWellFormed (w : Word) : Bool := reservedBitsClear w && operationAssigned w

end Sys2Proof
end

