-- ==== Sys2Proof/Decode.lean ====
section
/-! DEFINITION. The decoder of the command word, total on all 2^32 words and rejecting by name, and
the encoder (spec/30_encoding.md R80 to R82, R89). The command word is one 32-bit register write:
no byte order is involved. -/

namespace Sys2Proof

/-- Why a command word is reserved (R82). What the codec does with such a command is
`Sys2Proof.Machine.execReserved`, the silent no-op of R82. -/
inductive DecodeError where
  /-- Some bit of `RSV` is 1 (whatever `OP` is). -/
  | reservedBits
  /-- `RSV` is zero and `OP` is `0b110` or `0b111`. -/
  | reservedOperation
deriving DecidableEq, Repr

/-- R81: the operation a command word selects; R82: which words are reserved. -/
def decode (w : Word) : Except DecodeError Instr :=
  if reservedBitsClear w then
    match (opField w).toNat with
    | 0 => .ok .bfx
    | 1 => .ok .bfi
    | 2 => .ok .fxs
    | 3 => .ok .fxe
    | 4 => .ok .dec
    | 5 => .ok .enc
    | _ => .error .reservedOperation
  else .error .reservedBits

/-- R81: the command word of each operation. -/
def encode : Instr → Word
  | .bfx => 0x00000000
  | .bfi => 0x00000001
  | .fxs => 0x00000002
  | .fxe => 0x00000003
  | .dec => 0x00000004
  | .enc => 0x00000005

/-- The instruction the decoder reads from an opcode-table word: the low `nbits` bits of `w`, every
higher bit zero. A command is one 32-bit word (R80), so a number that does not fit is no command. -/
def decodeTableWord (nbits w : Nat) : Option Instr :=
  if w % 2 ^ nbits < 2 ^ 32 then (decode (BitVec.ofNat 32 (w % 2 ^ nbits))).toOption else none

end Sys2Proof
end

