-- ==== Sys2Proof/Machine/State.lean ====
section
/-! DEFINITION. The state of the codec (spec/10_state.md, spec/20_memory.md) and the machine right
after reset (R42, R220), as plain data. -/

namespace Sys2Proof.Machine

/-- An element-indexed space (R50, R51): the elements something has written, as (index, element) pairs
with strictly rising indices (`Memory.wf`). An index that is not listed has no value of its own: what
reading it gives is said in one place, `State.readPb` and `State.readUf`. -/
abbrev Memory (width : Nat) := List (Nat × BitVec width)

/-- `PB_SIZE` and `UF_SIZE` of R9: an integer from 0 to 2^64 - 1. -/
abbrev Size := Fin (2 ^ 64)

/-- The nine interface registers, in the order of their register index (R22). -/
inductive Reg where
  | cmd
  | status
  | a
  | b
  | y0
  | y1
  | ch
  | len
  | cnt
deriving DecidableEq, Repr

/-- One action of the host, the caller of R20, in the command-list form of R91, or a turn the host
leaves to the codec. -/
inductive HostAction where
  /-- `wr REG, value`: a register write (R22). A write to `CMD` is the issue step alone (R31). -/
  | write (r : Reg) (v : DWord)
  /-- `rd REG`: a register read (R22). -/
  | read (r : Reg)
  /-- `<MNEMONIC>` of R91: the word is written to `CMD` and the host waits for `STATUS.DONE = 1`. -/
  | command (w : Word)
  /-- The host does nothing and the codec takes one step of its own. -/
  | codec
  /-- The host writes an element of its packed-byte buffer (R20, R65). -/
  | writePb (i : Nat) (v : Byte)
  /-- The host reads an element of its packed-byte buffer. -/
  | readPb (i : Nat)
  /-- The host writes an element of its unpacked-float buffer. -/
  | writeUf (j : Nat) (v : Word)
  /-- The host reads an element of its unpacked-float buffer. -/
  | readUf (j : Nat)
  /-- The reset event (R220). -/
  | reset
deriving DecidableEq, Repr

/-- What exists only while `BUSY = 1` (R40): the command word and the operands sampled by the issue
step (R31), and the pixel index `PIX` (R36). -/
structure Running where
  cmd : Word
  a : Word
  b : Word
  ch : DWord
  len : DWord
  pix : Nat
deriving DecidableEq, Repr

/-- Why a step stops with a fault: never. The codec raises no synchronous exception and has no fault
mechanism (R200, R204; spec/93_implementation_defined.md Part 1: fault is never used), so the type
has no constructor. -/
inductive Fault where
deriving DecidableEq, Repr

/-- Why the model does not admit a run. Each is a premise the spec puts on the host. -/
inductive Refusal where
  /-- Raised by no meaning: every instruction of the opcode table has one. Safe. -/
  | notModelled (mnemonic : String)
  /-- Raised by the issue step and by every host access but a read of `STATUS` while `STATUS.BUSY = 1`
  (R32, R65(c), R224, U9, U14: refuse). Safe. -/
  | hostActsWhileBusy
  /-- Raised by the issue step of `DEC` and `ENC` when a buffer is smaller than the operation needs
  (R60, R69, R225, U6, U12: refuse). Safe. -/
  | bufferTooSmall
  /-- Raised by a host access to an element the caller did not allocate (R13, R60: outside the
  source's definition). Safe. -/
  | outsideBuffer
deriving DecidableEq, Repr

/-- The state of the machine: the interface registers of R22 that have storage (`CMD` has none, R23),
the two spaces of R50 with their sizes, the operation in progress, and the host's side. -/
structure State where
  /-- `STATUS`, index 1 (R22, R24): bit 0 `BUSY`, bit 1 `DONE`, the rest zero. -/
  status : Word
  /-- `A`, index 2 (R25). -/
  a : Word
  /-- `B`, index 3 (R26). -/
  b : Word
  /-- `Y0`, index 4 (R27). -/
  y0 : Word
  /-- `Y1`, index 5 (R27). -/
  y1 : Word
  /-- `CH`, index 6 (R28). -/
  ch : DWord
  /-- `LEN`, index 7 (R29). -/
  len : DWord
  /-- `CNT`, index 8 (R30). -/
  cnt : DWord
  /-- The packed-byte space `PB` (R50, R52). -/
  pb : Memory 8
  /-- The unpacked-float space `UF` (R50, R53). -/
  uf : Memory 32
  /-- `PB_SIZE` (R9, R51): how many elements of `PB` the caller allocated. -/
  pbSize : Size
  /-- `UF_SIZE` (R9, R51): how many elements of `UF` the caller allocated. -/
  ufSize : Size
  /-- The operation in progress (R31, R36, R40). -/
  running : Option Running
  /-- The model's own: what the host does, oldest action first. -/
  inputs : List HostAction
  /-- The model's own: what the host's last read returned, zero-extended to 64 bits. -/
  rdata : DWord
  /-- The model's own: how many operations a reset has abandoned (the counter of U10's free values). -/
  draws : Nat
deriving DecidableEq, Repr

/-- The machine right after reset (R22, R42, R220): all nine registers read as zero, no operation is
running, nothing has written `PB` or `UF`. DESIGN CHOICE (notes/assumptions/3.md): the buffer sizes,
which the spec leaves to each launch, are the greatest ones R9 allows. -/
def State.reset : State where
  status := 0
  a := 0
  b := 0
  y0 := 0
  y1 := 0
  ch := 0
  len := 0
  cnt := 0
  pb := []
  uf := []
  pbSize := ⟨2 ^ 64 - 1, by decide⟩
  ufSize := ⟨2 ^ 64 - 1, by decide⟩
  running := none
  inputs := []
  rdata := 0
  draws := 0

end Sys2Proof.Machine
end

