-- ==== Sys2Proof/Machine/Flags.lean ====
section
/-! DEFINITION. The bits of `STATUS` (spec/10_state.md R24). The codec has no other flag: no condition
code, no predicate, no IEEE-754 exception flag (R37, spec/45_numerics.md R192). -/

namespace Sys2Proof.Machine

/-- `STATUS` when idle since reset (R24). -/
def statusIdle : Word := 0

/-- `STATUS` after the issue step (R31): `BUSY = 1`, `DONE = 0`. -/
def statusBusy : Word := 1

/-- `STATUS` after the completion step (R33): `BUSY = 0`, `DONE = 1`. -/
def statusDone : Word := 2

/-- `STATUS.BUSY`, bit 0 (R24). -/
def State.busy (s : State) : Bool := s.status.getLsbD 0

/-- `STATUS.DONE`, bit 1 (R24). -/
def State.done (s : State) : Bool := s.status.getLsbD 1

end Sys2Proof.Machine
end

