-- ==== Sys2Proof/Machine/Operands.lean ====
section
/-! DEFINITION. The operand forms: the fields of a 32-bit pattern and the functions `SM`, `EX`, `INS`
(spec/40_bitfield.md R110 to R112), the operands sampled by the issue step (spec/30_encoding.md R84),
and the two pixel formats (R87, R88). -/

namespace Sys2Proof.Machine

/-- `sign`, bit 31 of a pattern (R86). -/
def signBit (b : Word) : Bool := b.getLsbD 31

/-- `frac`, bits 22 to 0 of a pattern (R86). -/
def fracField (b : Word) : BitVec 23 := b.extractLsb' 0 23

/-- `SM(b)` (R110): the sign-and-mantissa part. -/
def sm (b : Word) : Word := b &&& 0x807fffff

/-- `EX(b)` (R111): the exponent field. -/
def ex (b : Word) : Byte := ((b >>> 23) &&& 0xff).setWidth 8

/-- `INS(sm, ex)` (R112): reassembly from a sign-and-mantissa part and an exponent field. -/
def ins (part : Word) (e : Byte) : Word := (part &&& 0x807fffff) ||| (e.setWidth 32 <<< 23)

/-- The operands of an operation, as the issue step samples them (R31, R84), with `PIX` at 0 (R36). -/
def sample (w : Word) (s : State) : Running where
  cmd := w
  a := s.a
  b := s.b
  ch := s.ch
  len := s.len
  pix := 0

/-- The new exponent field of `BFI`: `B[7:0]`, `B[31:8]` ignored (R26, R84). -/
def insertedExponent (r : Running) : Byte := r.b.extractLsb' 0 8

/-- `pw2` of `FXS`: all of `B` as a two's complement integer (R26, R84). -/
def powerOfTwo (r : Running) : Int := r.b.toInt

/-- `channels` as a number (R28, R84). -/
def channels (r : Running) : Nat := r.ch.toNat

/-- R28: the legal channel counts are 3 and 4, all 64 bits of `CH` compared. -/
def validChannels (r : Running) : Bool := r.ch == 3 || r.ch == 4

/-- A packed pixel (R87): three 8-bit mantissas and the shared exponent byte. -/
structure PackedPixel where
  r : Byte
  g : Byte
  b : Byte
  e : Byte
deriving DecidableEq, Repr

/-- Component `k` of a packed pixel, in the order `R`, `G`, `B`, `E` (R52). -/
def packedComponent (q : PackedPixel) (k : Nat) : Byte :=
  match k with
  | 0 => q.r
  | 1 => q.g
  | 2 => q.b
  | _ => q.e

/-- An unpacked pixel (R88); `a` is the alpha, used with four channels only. -/
structure UnpackedPixel where
  r : Word
  g : Word
  b : Word
  a : Word
deriving DecidableEq, Repr

/-- Component `k` of an unpacked pixel, in the order `R`, `G`, `B`, `A` (R53). -/
def unpackedComponent (q : UnpackedPixel) (k : Nat) : Word :=
  match k with
  | 0 => q.r
  | 1 => q.g
  | 2 => q.b
  | _ => q.a

end Sys2Proof.Machine
end

