-- ==== Sys2Proof/Machine/Ops.lean ====
section
/-! DEFINITION. The named operations over memory and registers: element reads and writes, one setter
per field, the size premise, the issue and completion steps shared by all six operations, the host's
register accesses and the reset event. There is no exception to take and none to return from
(spec/60_exceptions.md R200, R204, R205). -/

namespace Sys2Proof.Machine

/-! ### Element memory (R50 to R56) -/

/-- The canonical form of a space: indices strictly rising. -/
abbrev Memory.wf {width : Nat} (m : Memory width) : Prop := (m.map Prod.fst).Pairwise (· < ·)

/-- The element listed at an index; `none` where nothing has written it. -/
def Memory.read {width : Nat} : Memory width → Nat → Option (BitVec width)
  | [], _ => none
  | (k, v) :: rest, i => if k = i then some v else Memory.read rest i

/-- Write one whole element (R55), keeping the canonical form. -/
def Memory.write {width : Nat} : Memory width → Nat → BitVec width → Memory width
  | [], i, v => [(i, v)]
  | (k, u) :: rest, i, v =>
    if i < k then (i, v) :: (k, u) :: rest
    else if i = k then (i, v) :: rest
    else (k, u) :: Memory.write rest i v

/-- Write `f 0` to `f (n - 1)` to the elements 0 to `n - 1`. -/
def Memory.fill {width : Nat} (f : Nat → BitVec width) : Nat → Memory width → Memory width
  | 0, m => m
  | n + 1, m => Memory.write (Memory.fill f n m) n (f n)

/-! ### One setter per field -/

def State.setStatus (s : State) (v : Word) : State := { s with status := v }
def State.setA (s : State) (v : Word) : State := { s with a := v }
def State.setB (s : State) (v : Word) : State := { s with b := v }
def State.setY0 (s : State) (v : Word) : State := { s with y0 := v }
def State.setY1 (s : State) (v : Word) : State := { s with y1 := v }
def State.setCh (s : State) (v : DWord) : State := { s with ch := v }
def State.setLen (s : State) (v : DWord) : State := { s with len := v }
def State.setCnt (s : State) (v : DWord) : State := { s with cnt := v }
def State.setPb (s : State) (v : Memory 8) : State := { s with pb := v }
def State.setUf (s : State) (v : Memory 32) : State := { s with uf := v }
def State.setRunning (s : State) (v : Option Running) : State := { s with running := v }
def State.setInputs (s : State) (v : List HostAction) : State := { s with inputs := v }
def State.setRdata (s : State) (v : DWord) : State := { s with rdata := v }
def State.setDraws (s : State) (v : Nat) : State := { s with draws := v }

/-! ### `MemRead` and `MemWrite` (R13, R55, R56) -/

/-- `MemRead(PB, i, 1)`. R62, U13: an element nothing has written holds an unspecified value, here the
free value `Config.initialPb i`, the same at every read (R56).
DEDUCED (notes/assumptions/4.md). -/
def State.readPb (s : State) (i : Nat) : Byte := (s.pb.read i).getD (Config.initialPb i)

/-- `MemRead(UF, j, 4)`. R62, U13: as `readPb`, with the free value `Config.initialUf j`. -/
def State.readUf (s : State) (j : Nat) : Word := (s.uf.read j).getD (Config.initialUf j)

/-- `MemWrite(PB, i, 1, v)`. -/
def State.writePb (s : State) (i : Nat) (v : Byte) : State := s.setPb (s.pb.write i v)

/-- `MemWrite(UF, j, 4, v)`. -/
def State.writeUf (s : State) (j : Nat) (v : Word) : State := s.setUf (s.uf.write j v)

/-! ### The pixel count and the size premise (R36, R54, R69) -/

/-- `N` of `DEC`: `floor(LEN / 4)` (R146); no pixel when the channel count is invalid (R145). -/
def decCount (r : Running) : Nat := if validChannels r then r.len.toNat / 4 else 0

/-- `N` of `ENC`: `floor(LEN / CH)` (R167); no pixel when the channel count is invalid (R166). -/
def encCount (r : Running) : Nat := if validChannels r then r.len.toNat / channels r else 0

/-- The pixel count of the operation in progress; the scalar operations and a reserved command
process no pixel. -/
def pixelCount (r : Running) : Nat :=
  match decode r.cmd with
  | .ok .bfx => 0
  | .ok .bfi => 0
  | .ok .fxs => 0
  | .ok .fxe => 0
  | .ok .dec => decCount r
  | .ok .enc => encCount r
  | .error _ => 0

/-- How many elements of `PB`, from index 0, the operation may access (R54). -/
def elementsPb (r : Running) : Nat := 4 * pixelCount r

/-- How many elements of `UF`, from index 0, the operation may access (R54). -/
def elementsUf (r : Running) : Nat := channels r * pixelCount r

/-- The launch premise of R69: both buffers are as large as the operation needs. -/
def sizesSuffice (r : Running) (s : State) : Bool :=
  decide (elementsPb r ≤ s.pbSize.val) && decide (elementsUf r ≤ s.ufSize.val)

/-! ### Issue and completion (R31, R33) -/

/-- The effect of the issue step: the operands are sampled, `BUSY <- 1`, `DONE <- 0`. -/
def begin (w : Word) (s : State) : State :=
  (s.setRunning (some (sample w s))).setStatus statusBusy

/-- The effect of the completion step on `STATUS`: `BUSY <- 0`, `DONE <- 1`; the sampled operands and
`PIX` cease to exist (R40). -/
def finish (s : State) : State := (s.setRunning none).setStatus statusDone

/-- The issue step (R31), with the two premises under which the spec admits it: `BUSY = 0` (R32, U9)
and buffers of the size R69 requires (R60, U6). -/
def issue (w : Word) (s : State) : Host.Outcome State Fault Refusal :=
  if s.busy then .refused .hostActsWhileBusy
  else if sizesSuffice (sample w s) s then .next (begin w s)
  else .refused .bufferTooSmall

/-- A whole operation as one atomic transition (R65): the issue step, then `work` on the sampled
operands, then the completion step. -/
def operate (w : Word) (work : Running → State → State) (s : State) :
    Host.Outcome State Fault Refusal :=
  match issue w s with
  | .next t => .next (finish (work (sample w s) t))
  | .fault f => .fault f
  | .refused q => .refused q

/-- What a reserved command does (R82): `CNT <- 0`, nothing else. -/
def reservedWork (_ : Running) (s : State) : State := s.setCnt 0

/-- A reserved command word (R82): a silent no-op that sets `CNT <- 0` and completes.
DESIGN CHOICE (notes/assumptions/7.md): U8 also lets a model refuse it. -/
def execReserved (w : Word) (s : State) : Host.Outcome State Fault Refusal :=
  operate w reservedWork s

/-! ### The host's register accesses (R22, R32) -/

/-- What a register reads as (R22): `CMD` has no storage and reads as 0 (R23). -/
def readReg (r : Reg) (s : State) : DWord :=
  match r with
  | .cmd => 0
  | .status => s.status.setWidth 64
  | .a => s.a.setWidth 64
  | .b => s.b.setWidth 64
  | .y0 => s.y0.setWidth 64
  | .y1 => s.y1.setWidth 64
  | .ch => s.ch
  | .len => s.len
  | .cnt => s.cnt

/-- A host write to a register (R22): a write to `CMD` is the issue step, a write to a read-only
register is ignored. DESIGN CHOICE (notes/assumptions/6.md): a 32-bit register takes the low 32 bits
of the 64-bit value. While `BUSY = 1` no write is admitted (R32, U9). -/
def hostWrite (r : Reg) (v : DWord) (s : State) : Host.Outcome State Fault Refusal :=
  if s.busy then .refused .hostActsWhileBusy
  else
    match r with
    | .cmd => issue (v.setWidth 32) s
    | .status => .next s
    | .a => .next (s.setA (v.setWidth 32))
    | .b => .next (s.setB (v.setWidth 32))
    | .y0 => .next s
    | .y1 => .next s
    | .ch => .next (s.setCh v)
    | .len => .next (s.setLen v)
    | .cnt => .next s

/-- A host read of a register (R22). While `BUSY = 1` only `STATUS` may be read (R32, U9). -/
def hostRead (r : Reg) (s : State) : Host.Outcome State Fault Refusal :=
  if s.busy && r != .status then .refused .hostActsWhileBusy
  else .next (s.setRdata (readReg r s))

/-! ### The host's buffer accesses (R20, R51, R65) -/

/-- The host writes an element of `PB`; not while an operation runs (R65(c), U14), not beyond what is
allocated (R13, R60). -/
def hostWritePb (i : Nat) (v : Byte) (s : State) : Host.Outcome State Fault Refusal :=
  if s.busy then .refused .hostActsWhileBusy
  else if i < s.pbSize.val then .next (s.writePb i v)
  else .refused .outsideBuffer

/-- The host reads an element of `PB`, under the same conditions. -/
def hostReadPb (i : Nat) (s : State) : Host.Outcome State Fault Refusal :=
  if s.busy then .refused .hostActsWhileBusy
  else if i < s.pbSize.val then .next (s.setRdata ((s.readPb i).setWidth 64))
  else .refused .outsideBuffer

/-- The host writes an element of `UF`, under the same conditions. -/
def hostWriteUf (j : Nat) (v : Word) (s : State) : Host.Outcome State Fault Refusal :=
  if s.busy then .refused .hostActsWhileBusy
  else if j < s.ufSize.val then .next (s.writeUf j v)
  else .refused .outsideBuffer

/-- The host reads an element of `UF`, under the same conditions. -/
def hostReadUf (j : Nat) (s : State) : Host.Outcome State Fault Refusal :=
  if s.busy then .refused .hostActsWhileBusy
  else if j < s.ufSize.val then .next (s.setRdata ((s.readUf j).setWidth 64))
  else .refused .outsideBuffer

/-! ### The reset event (R42, R220, R221) -/

/-- U10: every destination element the abandoned operation could have written (R54) holds any value:
`DEC` writes `UF`, `ENC` writes `PB`, the others write no memory. DEDUCED (notes/assumptions/5.md). -/
def abandon (r : Running) (s : State) : State :=
  match decode r.cmd with
  | .ok .bfx => s
  | .ok .bfi => s
  | .ok .fxs => s
  | .ok .fxe => s
  | .ok .dec => s.setUf (Memory.fill (Config.abandonedUf s.draws) (elementsUf r) s.uf)
  | .ok .enc => s.setPb (Memory.fill (Config.abandonedPb s.draws) (elementsPb r) s.pb)
  | .error _ => s

/-- What a reset does to memory: nothing, unless it abandons an operation in progress (R42, U10). -/
def resetMemory (s : State) : State :=
  match s.running with
  | none => s
  | some r => (abandon r s).setDraws (s.draws + 1)

/-- The reset event (R42, R220): every register takes its reset value and no operation runs; the
caller's buffers, and what is the host's own, stay. DESIGN CHOICE (notes/assumptions/15.md): so do the
sizes and the counter of U10's draws. -/
def resetEvent (s : State) : State :=
  { State.reset with
    pb := (resetMemory s).pb
    uf := (resetMemory s).uf
    pbSize := s.pbSize
    ufSize := s.ufSize
    inputs := s.inputs
    rdata := s.rdata
    draws := (resetMemory s).draws }

end Sys2Proof.Machine
end

