-- ==== Sys2Proof/Machine/Bitfield.lean ====
section
/-! DEFINITION. `BFX` and `BFI` (spec/40_bitfield.md R113, R114). -/

namespace Sys2Proof.Machine

/-- The results of `BFX` (R113): `Y0 <- SM(A)`, `Y1 <- zext_32(EX(A))`. -/
def bfxWork (r : Running) (s : State) : State :=
  (s.setY0 (sm r.a)).setY1 ((ex r.a).setWidth 32)

/-- `BFX`, bit-field extract (R113). -/
def execBfx (s : State) : Host.Outcome State Fault Refusal := operate (encode .bfx) bfxWork s

/-- The result of `BFI` (R114): `Y0 <- INS(A, B[7:0])`; `Y1` keeps its value. -/
def bfiWork (r : Running) (s : State) : State := s.setY0 (ins r.a (insertedExponent r))

/-- `BFI`, bit-field insert (R114). -/
def execBfi (s : State) : Host.Outcome State Fault Refusal := operate (encode .bfi) bfiWork s

end Sys2Proof.Machine
end

