-- ==== Sys2Proof/Machine/Numerics.lean ====
section
/-! DEFINITION. The floating-point primitives of the pipelines (spec/45_numerics.md R180 to R191), each
on 32-bit patterns. None sets a flag or traps, and there is no rounding-mode register (R192). -/

namespace Sys2Proof.Machine

/-! ### The format (R180) -/

/-- `ex = 255` and `frac ≠ 0` (R180). -/
def isNan (b : Word) : Bool := ex b == 255 && fracField b != 0

/-- `ex = 255` and `frac = 0` (R180). -/
def isInf (b : Word) : Bool := ex b == 255 && fracField b == 0

/-- `ex = 0` and `frac = 0` (R180). -/
def isZero (b : Word) : Bool := ex b == 0 && fracField b == 0

/-- A zero, a subnormal or a normal number (R180). -/
def isFinite (b : Word) : Bool := ex b != 255

/-- A normal number (R180). -/
def isNormal (b : Word) : Bool := ex b != 0 && ex b != 255

/-- `value(b)` of R180, the number a zero, subnormal or normal pattern stands for. -/
def value (b : Word) : ℚ :=
  if ex b = 0 then
    (-1) ^ (signBit b).toNat * (2 : ℚ) ^ (-126 : ℤ) * ((fracField b).toNat / 2 ^ 23)
  else
    (-1) ^ (signBit b).toNat * (2 : ℚ) ^ (((ex b).toNat : ℤ) - 127) * (1 + (fracField b).toNat / 2 ^ 23)

/-- The magnitude of a finite pattern in units of 2^-149, the least subnormal: `|value(b)| × 2^149`
(R180, as a whole number). -/
def mag (b : Word) : Nat :=
  if ex b = 0 then (fracField b).toNat
  else (2 ^ 23 + (fracField b).toNat) * 2 ^ ((ex b).toNat - 1)

/-! ### Constants (R183) -/

/-- `PZERO`, +0.0. -/
def pzero : Word := 0x00000000

/-- `HALF`, 0.5. -/
def half : Word := 0x3F000000

/-- `ONE`, 1.0. -/
def one : Word := 0x3F800000

/-- `C256`, 256.0. -/
def c256 : Word := 0x43800000

/-- `PINF`, +infinity. -/
def pinf : Word := 0x7F800000

/-- `T_HI`, the least pattern whose value is not below 10^-32. -/
def tHi : Word := 0x0A4FB11F

/-! ### Rounding (R182) -/

/-- `n / d` rounded to the nearest whole number, a tie to the even one. -/
def roundNearestEven (n d : Nat) : Nat :=
  let q := n / d
  let rest := 2 * (n % d)
  if rest < d then q else if d < rest then q + 1 else if q % 2 = 0 then q else q + 1

/-- Bits 30 to 0 of `RN(v)` for `v = (n / d) × 2^-149`, `d` not 0. With `q` the whole part of `n / d`, the
spacing of representable numbers at `v` is `2^shift` units, where `shift` is 0 below 2^24 units and
otherwise what brings `q` to 24 bits; counting spacings from zero counts patterns, and the pattern
of +infinity is where the count stops (|v| of at least 2^128 - 2^103). -/
def roundMag (n d : Nat) : Nat :=
  let shift := Nat.log2 (n / d) - 23
  min (shift * 2 ^ 23 + roundNearestEven n (d * 2 ^ shift)) 0x7F800000

/-- The pattern with a sign and bits 30 to 0. -/
def pack (sign : Bool) (low : Nat) : Word := BitVec.ofNat 32 ((if sign then 2 ^ 31 else 0) + low)

/-- `RN(v)` as a relation, in the words of R182: below 2^128 - 2^103 in magnitude, `r` is a nearest
representable number, the one with even `frac` on a tie; from there on it is the infinity with the
sign of `v`. -/
def RoundsTo (v : ℚ) (r : Word) : Prop :=
  (|v| < 2 ^ 128 - 2 ^ 103 →
    isFinite r = true ∧
    (∀ c : Word, isFinite c = true → |value r - v| ≤ |value c - v|) ∧
    (∀ c : Word, isFinite c = true → value c ≠ value r → |value c - v| = |value r - v| →
      (fracField r).getLsbD 0 = false)) ∧
  (2 ^ 128 - 2 ^ 103 ≤ |v| → isInf r = true ∧ (signBit r = true ↔ v < 0))

/-- `trunc` of R190: the whole number obtained by dropping the fractional part, toward zero. -/
def truncate (q : ℚ) : Int := if 0 ≤ q then ⌊q⌋ else ⌈q⌉

/-! ### NaN results (R186) -/

/-- The NaN pattern made from 32 free bits: sign and fraction as given, with a zero fraction replaced
by 1. Every NaN pattern is `asNan` of itself. -/
def asNan (bits : Word) : Word := if fracField bits = 0 then bits ||| 0x7F800001 else bits ||| 0x7F800000

/-- `DEFAULT_NAN` (R9, R186): some pattern with `ex = 255` and `frac ≠ 0`, one per run
(DEDUCED, notes/assumptions/9.md). -/
def defaultNan : Word := asNan Config.defaultNanBits

/-! ### The primitives -/

/-- `U8TOF32(n)` (R184). -/
def u8ToF32 (n : Byte) : Word :=
  if n = 0 then pzero
  else
    let k := Nat.log2 n.toNat
    BitVec.ofNat 32 ((127 + k) * 2 ^ 23 + (n.toNat - 2 ^ k) * 2 ^ (23 - k))

/-- `FMUL(a, b)` (R185, R186). -/
def fmul (a b : Word) : Word :=
  let sign := signBit a != signBit b
  if isNan a || isNan b then asNan (Config.mulNanBits a b)
  else if isZero a && isInf b || isInf a && isZero b then defaultNan
  else if isInf a || isInf b then pack sign 0x7F800000
  else pack sign (roundMag (mag a * mag b) (2 ^ 149))

/-- `FDIV(a, b)` (R186, R187). -/
def fdiv (a b : Word) : Word :=
  let sign := signBit a != signBit b
  if isNan a || isNan b then asNan (Config.divNanBits a b)
  else if isZero a && isZero b || isInf a && isInf b then defaultNan
  else if isInf b then pack sign 0
  else if isInf a || isZero b then pack sign 0x7F800000
  else pack sign (roundMag (mag a * 2 ^ 149) (mag b))

/-- The order of patterns that are not NaN (R181): bits 30 to 0 as an unsigned number, negated when
the sign bit is set, so that `+0.0` and `-0.0` are equal and the infinities are the ends. -/
def orderKey (b : Word) : Int :=
  if signBit b then -((b.toNat % 2 ^ 31 : Nat) : Int) else ((b.toNat % 2 ^ 31 : Nat) : Int)

/-- `FGT(a, b)` (R188). -/
def fgt (a b : Word) : Bool := !isNan a && !isNan b && decide (orderKey b < orderKey a)

/-- `LT_THRESH(m)` (R189), as the test on the pattern: the source's `max < 1e-32`. -/
def ltThresh (m : Word) : Bool := !isNan m && (signBit m || decide (m.toNat ≤ 0x0A4FB11E))

/-- `F2U8(a)` (R190): truncation toward zero, then reduction mod 256; `F2U8_NONFINITE` of the class of
a NaN or an infinity. -/
def f2u8 (a : Word) : Byte :=
  if isNan a then Config.f2u8NonFinite .nan
  else if isInf a then Config.f2u8NonFinite (if signBit a then .negInf else .posInf)
  else BitVec.ofInt 8 (if signBit a then -((mag a / 2 ^ 149 : Nat) : Int) else ((mag a / 2 ^ 149 : Nat) : Int))

/-- `MAX3(r, g, b)` (R191): a chain of two comparisons; on a NaN the spec's own choice (U5; DEDUCED,
notes/assumptions/12.md). -/
def max3 (r g b : Word) : Word :=
  let m := if fgt g r then g else r
  if fgt b m then b else m

end Sys2Proof.Machine
end

