-- ==== Sys2Proof/Machine/Scaler.lean ====
section
/-! DEFINITION. The fast exponent scaler, `FXS` (spec/41_fxs.md R120, R121). -/

namespace Sys2Proof.Machine

/-- `FXS(b, p)` (R120): the exponent field plus `p`, only the low 8 bits kept, sign and fraction passed
through. -/
def fxs (b : Word) (p : Int) : Word := ins (sm b) (BitVec.ofInt 8 ((ex b).toNat + p))

/-- The result of `FXS` (R121): `Y0 <- FXS(A, sext(B))`; `Y1` keeps its value. -/
def fxsWork (r : Running) (s : State) : State := s.setY0 (fxs r.a (powerOfTwo r))

/-- `FXS`, fast exponent scale (R121). -/
def execFxs (s : State) : Host.Outcome State Fault Refusal := operate (encode .fxs) fxsWork s

end Sys2Proof.Machine
end

