-- ==== Sys2Proof/Machine/Decoder.lean ====
section
/-! DEFINITION. The RGBE decoder pipeline, `DEC` (spec/43_decode.md R140 to R148). -/

namespace Sys2Proof.Machine

/-- The scale of a packed pixel with exponent byte `e` (R141, R142). -/
def decScale (e : Byte) : Word := fxs one (e.toNat - 136)

/-- `DECPX(r, g, b, e)` (R141). -/
def decPx (p : PackedPixel) : UnpackedPixel :=
  if p.e = 0 then ⟨pzero, pzero, pzero, pzero⟩
  else
    ⟨fmul (u8ToF32 p.r) (decScale p.e), fmul (u8ToF32 p.g) (decScale p.e),
      fmul (u8ToF32 p.b) (decScale p.e), one⟩

/-- The packed pixel number `p` of `PB` (R52). -/
def packedAt (s : State) (p : Nat) : PackedPixel :=
  ⟨s.readPb (4 * p), s.readPb (4 * p + 1), s.readPb (4 * p + 2), s.readPb (4 * p + 3)⟩

/-- Store an unpacked pixel at `UF` index `base`, cut to `ch` components (R53, R140). -/
def storeUnpacked (ch base : Nat) (q : UnpackedPixel) (s : State) : State :=
  let t := ((s.writeUf base q.r).writeUf (base + 1) q.g).writeUf (base + 2) q.b
  if ch = 4 then t.writeUf (base + 3) q.a else t

/-- One iteration of the pixel loop of `DEC`, at `PIX = p` (R140). -/
def decPixel (ch p : Nat) (s : State) : State :=
  storeUnpacked ch (ch * p) (decPx (packedAt s p)) s

/-- The first `n` iterations of the pixel loop of `DEC`, in ascending order (R64, R140). -/
def decPixels (ch : Nat) : Nat → State → State
  | 0, s => s
  | n + 1, s => decPixel ch n (decPixels ch n s)

/-- The result register of `DEC` (R144): `CNT <- N · ch`; 0 for an invalid channel count, where `N` is 0
(R145). -/
def decResult (r : Running) (s : State) : State :=
  s.setCnt (BitVec.ofNat 64 (decCount r * channels r))

/-- `DEC` between its issue step and its completion step (R140). -/
def decWork (r : Running) (s : State) : State :=
  decResult r (decPixels (channels r) (decCount r) s)

/-- `DEC`, decode buffer (R140). -/
def execDec (s : State) : Host.Outcome State Fault Refusal := operate (encode .dec) decWork s

end Sys2Proof.Machine
end

