-- ==== Sys2Proof/Machine/Extractor.lean ====
section
/-! DEFINITION. The mantissa-exponent decoder, `FXE` (spec/42_fxe.md R130, R131). -/

namespace Sys2Proof.Machine

/-- The mantissa of `FXE(b)` (R130): the pattern with its exponent field forced to `0x7e`. -/
def fxeMantissa (b : Word) : Word := ins (sm b) 0x7e

/-- The exponent of `FXE(b)` (R130): the exponent field minus 126, in the integers. -/
def fxeExponent (b : Word) : Int := (ex b).toNat - 0x7e

/-- The results of `FXE` (R131): `Y0 <- m`, `Y1 <- trunc_32(x)`. -/
def fxeWork (r : Running) (s : State) : State :=
  (s.setY0 (fxeMantissa r.a)).setY1 (BitVec.ofInt 32 (fxeExponent r.a))

/-- `FXE`, fast extract exponent (R131), total on all 2^32 patterns (R133, U1). -/
def execFxe (s : State) : Host.Outcome State Fault Refusal := operate (encode .fxe) fxeWork s

end Sys2Proof.Machine
end

