-- ==== Sys2Proof/Machine/Encoder.lean ====
section
/-! DEFINITION. The RGBE encoder pipeline, `ENC` (spec/44_encode.md R160 to R171). -/

namespace Sys2Proof.Machine

/-- The factor `f = (frac × 256.0) ÷ m` of `ENCPX`, evaluated left to right (R161). -/
def encFactor (m : Word) : Word := fdiv (fmul (fxeMantissa m) c256) m

/-- `ENCPX(r, g, b)` (R161). -/
def encPx (r g b : Word) : PackedPixel :=
  let m := max3 r g b
  if ltThresh m then ⟨0, 0, 0, 0⟩
  else
    ⟨f2u8 (fmul r (encFactor m)), f2u8 (fmul g (encFactor m)), f2u8 (fmul b (encFactor m)),
      BitVec.ofInt 8 (fxeExponent m + 128)⟩

/-- `ENCPX` of the pixel at `UF` index `base`: the first three components are read, a fourth is not
(R160, R168). -/
def encodeAt (s : State) (base : Nat) : PackedPixel :=
  encPx (s.readUf base) (s.readUf (base + 1)) (s.readUf (base + 2))

/-- Store a packed pixel at `PB` index `base` (R52, R160). -/
def storePacked (base : Nat) (q : PackedPixel) (s : State) : State :=
  (((s.writePb base q.r).writePb (base + 1) q.g).writePb (base + 2) q.b).writePb (base + 3) q.e

/-- One iteration of the pixel loop of `ENC`, at `PIX = p` (R160). -/
def encPixel (ch p : Nat) (s : State) : State := storePacked (4 * p) (encodeAt s (ch * p)) s

/-- The first `n` iterations of the pixel loop of `ENC`, in ascending order (R64, R160). -/
def encPixels (ch : Nat) : Nat → State → State
  | 0, s => s
  | n + 1, s => encPixel ch n (encPixels ch n s)

/-- The result register of `ENC` (R165): `CNT <- 4 · N`; 0 for an invalid channel count, where `N` is 0
(R166). -/
def encResult (r : Running) (s : State) : State := s.setCnt (BitVec.ofNat 64 (encCount r * 4))

/-- `ENC` between its issue step and its completion step (R160). -/
def encWork (r : Running) (s : State) : State :=
  encResult r (encPixels (channels r) (encCount r) s)

/-- `ENC`, encode buffer (R160). -/
def execEnc (s : State) : Host.Outcome State Fault Refusal := operate (encode .enc) encWork s

end Sys2Proof.Machine
end

