-- ==== Sys2Proof/Machine/Dispatch.lean ====
section
/-! DEFINITION. One arm per operation, in the order of spec/30_encoding.md R81. -/

namespace Sys2Proof.Machine

def exec (i : Instr) (s : State) : Host.Outcome State Fault Refusal :=
  match i with
  | .bfx => Sys2Proof.Machine.execBfx s
  | .bfi => Sys2Proof.Machine.execBfi s
  | .fxs => Sys2Proof.Machine.execFxs s
  | .fxe => Sys2Proof.Machine.execFxe s
  | .dec => Sys2Proof.Machine.execDec s
  | .enc => Sys2Proof.Machine.execEnc s

end Sys2Proof.Machine
end

