-- ==== Sys2Proof/Machine/Port.lean ====
section
/-! DEFINITION. How the host's actions and the codec's own steps act on the state (spec/10_state.md R20,
R31 to R34; spec/20_memory.md R64, R65; spec/30_encoding.md R91). An operation can be run as one
atomic transition, which R65 allows, or step by step: the issue step, one step per pixel, the
completion step (R232). -/

namespace Sys2Proof.Machine

/-- A command word issued and waited for (R91): the operation it selects, or the no-op of a reserved
command (R82, tested first, R203). -/
def runCommand (w : Word) (s : State) : Host.Outcome State Fault Refusal :=
  match decode w with
  | .ok i => exec i s
  | .error _ => execReserved w s

/-- The codec transforms the pixel `PIX` of the operation in progress (R36, R64). -/
def pixelWork (r : Running) (s : State) : State :=
  match decode r.cmd with
  | .ok .bfx => s
  | .ok .bfi => s
  | .ok .fxs => s
  | .ok .fxe => s
  | .ok .dec => decPixel (channels r) r.pix s
  | .ok .enc => encPixel (channels r) r.pix s
  | .error _ => s

/-- The result registers the operation in progress writes at its completion step (R33, R34). -/
def resultWork (r : Running) (s : State) : State :=
  match decode r.cmd with
  | .ok .bfx => bfxWork r s
  | .ok .bfi => bfiWork r s
  | .ok .fxs => fxsWork r s
  | .ok .fxe => fxeWork r s
  | .ok .dec => decResult r s
  | .ok .enc => encResult r s
  | .error _ => reservedWork r s

/-- One step of the codec on its own: the next pixel while there is one, then the completion step
(R33, R36); an idle codec holds its registers (R212, R220). DESIGN CHOICE (notes/assumptions/1.md): a pixel is a
step. -/
def codecStep (s : State) : State :=
  match s.running with
  | none => s
  | some r =>
    if r.pix < pixelCount r then (pixelWork r s).setRunning (some { r with pix := r.pix + 1 })
    else finish (resultWork r s)

/-- What one host action does. -/
def perform (x : HostAction) (s : State) : Host.Outcome State Fault Refusal :=
  match x with
  | .write r v => hostWrite r v s
  | .read r => hostRead r s
  | .command w => runCommand w s
  | .codec => .next (codecStep s)
  | .writePb i v => hostWritePb i v s
  | .readPb i => hostReadPb i s
  | .writeUf j v => hostWriteUf j v s
  | .readUf j => hostReadUf j s
  | .reset => .next (resetEvent s)

/-- The next step of the machine: the host's next action, or, when the host has none left, a step of
the codec. -/
def stepOnce (s : State) : Host.Outcome State Fault Refusal :=
  match s.inputs with
  | [] => .next (codecStep s)
  | x :: rest => perform x (s.setInputs rest)

/-- The command word `w` (its low `nbits` bits) as the host's next action. -/
def offerCommand (s : State) (nbits w : Nat) : State :=
  s.setInputs (.command (BitVec.ofNat 32 (w % 2 ^ nbits)) :: s.inputs)

end Sys2Proof.Machine
end

