-- ==== Sys2Proof/Machine/Step.lean ====
section
/-! DEFINITION. One step of the machine. There is no program counter and no instruction fetch
(spec/10_state.md R36): a command is what the host's next action writes to `CMD` (R31). -/

namespace Sys2Proof.Machine

def step (s : State) : Host.Outcome State Fault Refusal := stepOnce s

/-- `s` with the command word `w` as the host's next action, so that the next step issues it and runs
it to completion (R91; notes/assumptions/2.md). -/
def State.withFetchWord (s : State) (nbits w : Nat) : State := offerCommand s nbits w

end Sys2Proof.Machine
end

