-- ==== Sys2Proof/Safety.lean ====
section
/-! DEFINITION. What a good state is: the invariant that every step keeps, whatever the host does. -/

namespace Sys2Proof.Machine

/-- The space is in canonical form and lists no element beyond what the caller allocated (R51, R60). -/
abbrev spaceGood {width : Nat} (m : Memory width) (size : Size) : Prop :=
  m.wf ∧ ∀ cell ∈ m, cell.1 < size.val

/-- `STATUS` holds one of its three reachable values (R24). -/
abbrev statusLegal (s : State) : Prop :=
  s.status = statusIdle ∨ s.status = statusBusy ∨ s.status = statusDone

/-- The operation in progress: its buffers are large enough (R69), `PIX` has not passed the pixel count
(R36), and the operand registers still hold what the issue step sampled (R31, R32). -/
abbrev runningGood (r : Running) (s : State) : Prop :=
  sizesSuffice r s = true ∧ r.pix ≤ pixelCount r ∧
    r.a = s.a ∧ r.b = s.b ∧ r.ch = s.ch ∧ r.len = s.len

/-- The invariant of the machine. -/
abbrev Inv (s : State) : Prop :=
  statusLegal s ∧ (s.busy = s.running.isSome) ∧ (∀ r ∈ s.running, runningGood r s) ∧
    spaceGood s.pb s.pbSize ∧ spaceGood s.uf s.ufSize

end Sys2Proof.Machine
end

