-- ==== Sys2Proof/Certificates/Slice0/Obligations.lean ====
section
/-! DEFINITION. The statements for the provers, from the numbered rules of spec/. OBLIGATIONS.json says
for each which rule it formalises. -/

open Sys2Proof Sys2Proof.Machine

/-! ### Encoding (spec/30_encoding.md) -/

/-- R81: the decoder selects operation `i` for exactly the words that match its row, `(w & mask) =
match` with mask 0xFFFFFFFF; bit 2 of `OP` separates the buffer operations, bit 0 gives their
direction. -/
def Obligations.CommandWordSelectsOperation : Prop :=
  (∀ (w : Word) (i : Instr), decode w = .ok i ↔ w &&& 0xFFFFFFFF = encode i) ∧
  encode .bfx = 0x00000000 ∧ encode .bfi = 0x00000001 ∧ encode .fxs = 0x00000002 ∧
  encode .fxe = 0x00000003 ∧ encode .dec = 0x00000004 ∧ encode .enc = 0x00000005 ∧
  (∀ i : Instr, (opField (encode i)).getLsbD 2 = true ↔ i = .dec ∨ i = .enc) ∧
  (opField (encode .dec)).getLsbD 0 = false ∧ (opField (encode .enc)).getLsbD 0 = true

/-- R82: which words are reserved, and that the decoder rejects exactly those. -/
def Obligations.ReservedWordsRejected : Prop :=
  ∀ w : Word,
    ((∃ e, decode w = .error e) ↔ opField w = 0b110 ∨ opField w = 0b111 ∨ rsvField w ≠ 0) ∧
    (commandWellFormed w = true ↔ ∃ i, decode w = .ok i)

/-- A few words written out from R81 and the table, and four reserved ones. -/
def Obligations.TableWordsDecode : Prop :=
  decodeTableWord 32 0b00000000000000000000000000000000 = some .bfx ∧
  decodeTableWord 32 0b00000000000000000000000000000001 = some .bfi ∧
  decodeTableWord 32 0b00000000000000000000000000000010 = some .fxs ∧
  decodeTableWord 32 0b00000000000000000000000000000011 = some .fxe ∧
  decodeTableWord 32 0b00000000000000000000000000000100 = some .dec ∧
  decodeTableWord 32 0b00000000000000000000000000000101 = some .enc ∧
  decodeTableWord 32 0x00000006 = none ∧ decodeTableWord 32 0x00000007 = none ∧
  decodeTableWord 32 0x0000000C = none ∧ decodeTableWord 32 0x80000002 = none

/-! ### A step and the instruction it runs -/

/-- When the host's next action writes a command word that decodes to `i` and waits for it (R91), the
step is `exec i` on the state without that action. How commands are offered is the model's choice
(notes/assumptions/2.md). -/
def Obligations.StepRunsDecodedCommand : Prop :=
  ∀ (s : State) (rest : List HostAction) (w : Word) (i : Instr),
    s.inputs = .command w :: rest → decode w = .ok i →
    step s = exec i { s with inputs := rest }

/-- R82: a reserved command sets `CNT` to 0 and completes; nothing else changes. The model takes this
no-op, which U8 allows, rather than refuse the run (notes/assumptions/7.md). -/
def Obligations.ReservedCommandNoOp : Prop :=
  ∀ (s : State) (rest : List HostAction) (w : Word),
    s.inputs = .command w :: rest → s.busy = false →
    (opField w = 0b110 ∨ opField w = 0b111 ∨ rsvField w ≠ 0) →
    step s = .next { s with inputs := rest, cnt := 0, status := 0x2, running := none }

/-- Every command an idle codec is given, of any word, completes when the buffers have the sizes R69
requires (R33, R200). One step per command is the model's choice, which R65 allows
(notes/assumptions/1.md). -/
def Obligations.EveryCommandCompletes : Prop :=
  ∀ (s : State) (rest : List HostAction) (w : Word),
    s.inputs = .command w :: rest → s.busy = false → sizesSuffice (sample w s) s = true →
    ∃ t, step s = .next t ∧ t.status = 0x2 ∧ t.running = none ∧ t.inputs = rest

/-! ### Scalar operations: result, completion and frame -/

/-- R113: `BFX`. Every field not named keeps its value. -/
def Obligations.BfxResult : Prop :=
  decode 0x00000000 = .ok .bfx ∧
  ∀ s : State, s.busy = false →
    exec .bfx s = .next { s with
      y0 := s.a &&& 0x807fffff, y1 := (s.a >>> 23) &&& 0xff, status := 0x2, running := none }

/-- R114: `BFI`. `Y1`, `CNT` and memory keep their values. -/
def Obligations.BfiResult : Prop :=
  decode 0x00000001 = .ok .bfi ∧
  ∀ s : State, s.busy = false →
    exec .bfi s = .next { s with
      y0 := (s.a &&& 0x807fffff) ||| ((s.b &&& 0xff) <<< 23), status := 0x2, running := none }

/-- R120, R121: `FXS`, with the exponent sum taken in the integers and only its low 8 bits kept. -/
def Obligations.FxsResult : Prop :=
  decode 0x00000002 = .ok .fxs ∧
  ∀ s : State, s.busy = false →
    exec .fxs s = .next { s with
      y0 := (s.a &&& 0x807fffff) ||| ((((s.a >>> 23) + s.b) &&& 0xff) <<< 23),
      status := 0x2, running := none }

/-- R130, R131: `FXE`, total on all 2^32 patterns. -/
def Obligations.FxeResult : Prop :=
  decode 0x00000003 = .ok .fxe ∧
  ∀ s : State, s.busy = false →
    exec .fxe s = .next { s with
      y0 := (s.a &&& 0x807fffff) ||| 0x3F000000, y1 := ((s.a >>> 23) &&& 0xff) - 126,
      status := 0x2, running := none }

/-! ### Laws of the bit-field functions -/

/-- R115 (the spec's own derivation): the laws of `SM`, `EX` and `INS`. -/
def Obligations.FieldLaws : Prop :=
  ∀ (b : Word) (e : Byte),
    ins (sm b) (ex b) = b ∧ sm (ins b e) = sm b ∧ ex (ins b e) = e ∧ sm (sm b) = sm b ∧ ex (sm b) = 0 ∧
    sm b ||| ((ex b).setWidth 32 <<< 23) = b ∧ sm b &&& ((ex b).setWidth 32 <<< 23) = 0

/-- R122 (the spec's own derivation): the exponent adder wraps at 8 bits, only `B[7:0]` matters, and
scaling is undone by the opposite adjustment. -/
def Obligations.ScalerLaws : Prop :=
  (∀ (b : Word) (p q : Int), fxs b p = fxs b (p + 256 * q)) ∧
  (∀ b : Word, fxs b 0 = b) ∧
  (∀ (b : Word) (p q : Int), fxs (fxs b p) q = fxs b (p + q)) ∧
  (∀ (b : Word) (p : Int), fxs (fxs b p) (-p) = b) ∧
  (∀ b v w : Word, v.extractLsb' 0 8 = w.extractLsb' 0 8 → fxs b v.toInt = fxs b w.toInt) ∧
  (∀ b : Word, fxs b (0x7FFFFFFF : Word).toInt = fxs b (-1)) ∧
  (∀ b : Word, fxs b (0x80000000 : Word).toInt = b) ∧
  (∀ b : Word, fxs b (0x00000100 : Word).toInt = b)

/-- R123 (the spec's own derivation): in the safe region the scaled pattern stands for exactly
`value(b) × 2^p`. -/
def Obligations.ScalerSafeRegion : Prop :=
  ∀ (b : Word) (p : Int), 1 ≤ (ex b).toNat → (ex b).toNat ≤ 254 →
    1 ≤ ((ex b).toNat : Int) + p → ((ex b).toNat : Int) + p ≤ 254 →
    value (fxs b p) = value b * (2 : ℚ) ^ p

/-- R120, R124 (the spec's own derivation): whatever the input, the sign and the fraction pass through
and the exponent field is the sum mod 256. -/
def Obligations.ScalerFields : Prop :=
  ∀ (b : Word) (p : Int),
    signBit (fxs b p) = signBit b ∧ fracField (fxs b p) = fracField b ∧
    ((ex (fxs b p)).toNat : Int) = (((ex b).toNat : Int) + p) % 256

/-- R132 (the spec's own derivation): the contract of the extractor on normal numbers. -/
def Obligations.ExtractorContract : Prop :=
  ∀ b : Word, 1 ≤ (ex b).toNat → (ex b).toNat ≤ 254 →
    value b = value (fxeMantissa b) * (2 : ℚ) ^ fxeExponent b ∧
    (signBit b = false → 1 / 2 ≤ value (fxeMantissa b) ∧ value (fxeMantissa b) < 1) ∧
    (signBit b = true → -1 < value (fxeMantissa b) ∧ value (fxeMantissa b) ≤ -1 / 2)

/-- R133 (the spec's own derivation): on zeros and subnormals the outputs are definite and the
contract fails; an infinity or a NaN gives exponent 129 and a finite mantissa. -/
def Obligations.ExtractorOutsideContract : Prop :=
  ∀ b : Word,
    (ex b = 0 → fxeExponent b = -126 ∧ value b ≠ value (fxeMantissa b) * (2 : ℚ) ^ fxeExponent b) ∧
    (ex b = 255 → fxeExponent b = 129) ∧
    isNormal (fxeMantissa b) = true ∧ signBit (fxeMantissa b) = signBit b ∧
    fracField (fxeMantissa b) = fracField b

/-- R135 (the spec's own derivation): the scaler puts back the exponent field the extractor removed,
for all 2^32 patterns. -/
def Obligations.ScalerUndoesExtractor : Prop :=
  ∀ b : Word, fxs (fxeMantissa b) (fxeExponent b) = b

/-! ### Floating-point primitives (spec/45_numerics.md) -/

/-- R184: every byte converts exactly. -/
def Obligations.ByteConvertsExactly : Prop :=
  ∀ n : Byte,
    isFinite (u8ToF32 n) = true ∧ signBit (u8ToF32 n) = false ∧ value (u8ToF32 n) = n.toNat ∧
    (n = 0 → u8ToF32 n = 0) ∧
    (1 ≤ n.toNat →
      (ex (u8ToF32 n)).toNat = 127 + Nat.log2 n.toNat ∧
      (fracField (u8ToF32 n)).toNat = (n.toNat - 2 ^ Nat.log2 n.toNat) * 2 ^ (23 - Nat.log2 n.toNat))

/-- R185 with R182 and R186: multiplication. One `DEFAULT_NAN` for the run is the model's reading of
R186 (notes/assumptions/9.md); the 32-bit format and its rounding mode are notes/assumptions/19.md. -/
def Obligations.FmulRoundsToNearest : Prop :=
  ∀ a b : Word,
    (isNan a = true ∨ isNan b = true → isNan (fmul a b) = true) ∧
    (isZero a = true → isInf b = true → fmul a b = defaultNan ∧ fmul b a = defaultNan) ∧
    isNan defaultNan = true ∧
    (isInf a = true → isNan b = false → isZero b = false →
      isInf (fmul a b) = true ∧ isInf (fmul b a) = true) ∧
    (isFinite a = true → isFinite b = true → RoundsTo (value a * value b) (fmul a b)) ∧
    (isNan (fmul a b) = false → signBit (fmul a b) = (signBit a != signBit b))

/-- R187 with R182 and R186: division. One `DEFAULT_NAN` for the run is the model's reading of R186
(notes/assumptions/9.md); the 32-bit format and its rounding mode are notes/assumptions/19.md. -/
def Obligations.FdivRoundsToNearest : Prop :=
  ∀ a b : Word,
    (isNan a = true ∨ isNan b = true → isNan (fdiv a b) = true) ∧
    (isZero a = true → isZero b = true → fdiv a b = defaultNan) ∧
    (isInf a = true → isInf b = true → fdiv a b = defaultNan) ∧
    (isFinite a = true → isInf b = true → isZero (fdiv a b) = true) ∧
    (isInf a = true → isFinite b = true → isInf (fdiv a b) = true) ∧
    (isFinite a = true → isZero a = false → isZero b = true → isInf (fdiv a b) = true) ∧
    (isFinite a = true → isFinite b = true → isZero b = false → RoundsTo (value a / value b) (fdiv a b)) ∧
    (isNan (fdiv a b) = false → signBit (fdiv a b) = (signBit a != signBit b))

/-- R181, R188: `FGT` is the order of the extended reals, and false whenever an operand is a NaN; with
both signs clear it is the order of the patterns. -/
def Obligations.FgtOrdersValues : Prop :=
  ∀ a b : Word,
    (isNan a = true ∨ isNan b = true → fgt a b = false) ∧
    (isFinite a = true → isFinite b = true → (fgt a b = true ↔ value b < value a)) ∧
    (isFinite b = true → fgt 0x7F800000 b = true ∧ fgt b 0x7F800000 = false ∧
      fgt 0xFF800000 b = false ∧ fgt b 0xFF800000 = true) ∧
    fgt 0x7F800000 0xFF800000 = true ∧ fgt 0xFF800000 0x7F800000 = false ∧ fgt a a = false ∧
    (isNan a = false → isNan b = false → signBit a = false → signBit b = false →
      (fgt a b = true ↔ b.toNat < a.toNat))

/-- R189: `LT_THRESH` is the comparison with the real number 10^-32, false for a NaN; the test on the
pattern; and the two other readings of the literal, the 64-bit number nearest to 10^-32 and the
32-bit pattern nearest to it, give the same test. -/
def Obligations.ThresholdComparesWithTenToMinus32 : Prop :=
  (∀ m : Word, isFinite m = true → (ltThresh m = true ↔ value m < 1 / 10 ^ 32)) ∧
  (∀ m : Word, isNan m = true → ltThresh m = false) ∧
  ltThresh 0x7F800000 = false ∧ ltThresh 0xFF800000 = true ∧
  (∀ m : Word, isNan m = false →
    (ltThresh m = false ↔ 0x0A4FB11F ≤ m.toNat ∧ m.toNat ≤ 0x7F800000)) ∧
  (∀ m : Word, isFinite m = true → (ltThresh m = true ↔ value m < 7307508186654515 / 2 ^ 159)) ∧
  (∀ m : Word, ltThresh m = fgt tHi m)

/-- R190: truncation toward zero and reduction mod 256, a free byte for each class of non-finite
pattern, and 0 for every number of magnitude 2^31 or more. -/
def Obligations.ByteCastTruncatesAndWraps : Prop :=
  ∀ a : Word,
    (isFinite a = true → f2u8 a = BitVec.ofInt 8 (truncate (value a))) ∧
    (isFinite a = true → 2 ^ 31 ≤ |value a| → f2u8 a = 0) ∧
    (isNan a = true → f2u8 a = Config.f2u8NonFinite .nan) ∧
    (a = 0x7F800000 → f2u8 a = Config.f2u8NonFinite .posInf) ∧
    (a = 0xFF800000 → f2u8 a = Config.f2u8NonFinite .negInf)

/-- R191: `MAX3` is a chain of two comparisons; it returns one of its inputs, a greatest one when none
is a NaN, `r` when `r` is a NaN, and passes over a NaN in `g` or `b`. -/
def Obligations.MaxOfThree : Prop :=
  ∀ r g b : Word,
    max3 r g b = (if fgt b (if fgt g r then g else r) then b else if fgt g r then g else r) ∧
    (max3 r g b = r ∨ max3 r g b = g ∨ max3 r g b = b) ∧
    (isNan r = false → isNan g = false → isNan b = false →
      fgt r (max3 r g b) = false ∧ fgt g (max3 r g b) = false ∧ fgt b (max3 r g b) = false) ∧
    (isNan r = true → max3 r g b = r) ∧
    (isNan r = false → isNan (max3 r g b) = false)

/-! ### `DEC` (spec/43_decode.md) -/

/-- R142 (the spec's own derivation): the scale for every exponent byte from 1 to 255, the wrapped
ones included. -/
def Obligations.DecodeScaleTable : Prop :=
  decScale 1 = 0x7C000000 ∧ decScale 2 = 0x7C800000 ∧ decScale 3 = 0x7D000000 ∧
  decScale 4 = 0x7D800000 ∧ decScale 5 = 0x7E000000 ∧ decScale 6 = 0x7E800000 ∧
  decScale 7 = 0x7F000000 ∧ decScale 8 = 0x7F800000 ∧ decScale 9 = 0x00000000 ∧
  ∀ e : Byte, 10 ≤ e.toNat →
    decScale e = (BitVec.ofNat 32 (e.toNat - 9)) <<< 23 ∧ value (decScale e) = (2 : ℚ) ^ ((e.toNat : Int) - 136)

/-- R143 (the spec's own derivation): the three colour outputs in closed form, as patterns and as
numbers. One `DEFAULT_NAN` for the run is the model's reading of R186 (notes/assumptions/9.md). -/
def Obligations.DecodedColourClosedForm : Prop :=
  ∀ (p : PackedPixel) (n : Nat), p.e ≠ 0 → n < 3 →
    let c := (packedComponent p n).toNat
    let out := unpackedComponent (decPx p) n
    let k := Nat.log2 c
    (10 ≤ p.e.toNat → c = 0 → out = 0) ∧
    (10 ≤ p.e.toNat → 1 ≤ c →
      out = BitVec.ofNat 32 ((p.e.toNat - 9 + k) * 2 ^ 23 + (c - 2 ^ k) * 2 ^ (23 - k)) ∧
      value out = c * (2 : ℚ) ^ ((p.e.toNat : Int) - 136)) ∧
    (p.e = 9 → out = 0) ∧
    (p.e = 8 → c = 0 → out = defaultNan) ∧
    (p.e = 8 → 1 ≤ c → out = 0x7F800000) ∧
    (p.e.toNat ≤ 7 → c = 0 → out = 0) ∧
    (p.e.toNat ≤ 7 → 1 ≤ c → c < 2 ^ (8 - p.e.toNat) →
      out = BitVec.ofNat 32 ((p.e.toNat + 247 + k) * 2 ^ 23 + (c - 2 ^ k) * 2 ^ (23 - k)) ∧
      value out = c * (2 : ℚ) ^ (p.e.toNat + 120)) ∧
    (p.e.toNat ≤ 7 → 2 ^ (8 - p.e.toNat) ≤ c → out = 0x7F800000)

/-- R141, R147: the zero sentinel gives +0.0 in all four components, the alpha too, whatever the colour
bytes hold; every other pixel has alpha 1.0. -/
def Obligations.DecodedAlphaAndZeroSentinel : Prop :=
  ∀ p : PackedPixel,
    (p.e = 0 → decPx p = ⟨0, 0, 0, 0⟩) ∧ (p.e ≠ 0 → (decPx p).a = 0x3F800000)

/-- R140, R144, R146, R53, R54, R62: what `DEC` does to an idle codec with a valid channel count and
buffers of the required sizes, for any length: every component of every whole pixel is the one
`DECPX` gives, every other element of `UF` keeps its value, the count is of components, and nothing
else changes. -/
def Obligations.DecodeBufferResult : Prop :=
  ∀ s : State, s.busy = false → (s.ch = 3 ∨ s.ch = 4) →
    4 * (s.len.toNat / 4) ≤ s.pbSize.val → s.ch.toNat * (s.len.toNat / 4) ≤ s.ufSize.val →
    ∃ t, exec .dec s = .next t ∧
      (∀ p k, p < s.len.toNat / 4 → k < s.ch.toNat →
        t.readUf (s.ch.toNat * p + k) = unpackedComponent (decPx (packedAt s p)) k) ∧
      (∀ j, s.ch.toNat * (s.len.toNat / 4) ≤ j → t.readUf j = s.readUf j) ∧
      t.cnt.toNat = s.len.toNat / 4 * s.ch.toNat ∧
      t = { s with uf := t.uf, cnt := t.cnt, status := 0x2, running := none }

/-- R145, R166: with a channel count other than 3 and 4 (all 64 bits compared), `DEC` and `ENC` set
`CNT` to 0 and complete, whatever the length, the buffers and their sizes are. -/
def Obligations.InvalidChannelsNoOp : Prop :=
  ∀ (s : State) (i : Instr), i = .dec ∨ i = .enc → s.busy = false → s.ch ≠ 3 → s.ch ≠ 4 →
    exec i s = .next { s with cnt := 0, status := 0x2, running := none }

/-- R60, R69, U6: an operation whose buffers are smaller than it needs is refused (U6's treatment;
notes/assumptions/16.md). -/
def Obligations.SmallBufferRefused : Prop :=
  ∀ s : State, s.busy = false → (s.ch = 3 ∨ s.ch = 4) →
    (s.pbSize.val < 4 * (s.len.toNat / 4) ∨ s.ufSize.val < s.ch.toNat * (s.len.toNat / 4) →
      exec .dec s = .refused .bufferTooSmall) ∧
    (s.pbSize.val < 4 * (s.len.toNat / s.ch.toNat) ∨
        s.ufSize.val < s.ch.toNat * (s.len.toNat / s.ch.toNat) →
      exec .enc s = .refused .bufferTooSmall)

/-- R54, R146: `DEC` never touches an element of `PB` from `4N` on: writing one before the operation or
after it comes to the same. -/
def Obligations.DecodeIgnoresTrailingElements : Prop :=
  ∀ (s : State) (i : Nat) (v : Byte), s.busy = false → sizesSuffice (sample (encode .dec) s) s = true →
    elementsPb (sample (encode .dec) s) ≤ i →
    ∃ t, exec .dec s = .next t ∧ exec .dec (s.writePb i v) = .next (t.writePb i v)

/-! ### `ENC` (spec/44_encode.md) -/

/-- R160, R165, R167, R52, R54, R62: what `ENC` does to an idle codec with a valid channel count and
buffers of the required sizes, for any length. -/
def Obligations.EncodeBufferResult : Prop :=
  ∀ s : State, s.busy = false → (s.ch = 3 ∨ s.ch = 4) →
    4 * (s.len.toNat / s.ch.toNat) ≤ s.pbSize.val →
    s.ch.toNat * (s.len.toNat / s.ch.toNat) ≤ s.ufSize.val →
    ∃ t, exec .enc s = .next t ∧
      (∀ p k, p < s.len.toNat / s.ch.toNat → k < 4 →
        t.readPb (4 * p + k) =
          packedComponent (encPx (s.readUf (s.ch.toNat * p)) (s.readUf (s.ch.toNat * p + 1))
            (s.readUf (s.ch.toNat * p + 2))) k) ∧
      (∀ i, 4 * (s.len.toNat / s.ch.toNat) ≤ i → t.readPb i = s.readPb i) ∧
      t.cnt.toNat = s.len.toNat / s.ch.toNat * 4 ∧
      t = { s with pb := t.pb, cnt := t.cnt, status := 0x2, running := none }

/-- R54, R167, R168: `ENC` never reads the alpha component of a four-channel pixel, nor an element of
`UF` beyond the last whole pixel. -/
def Obligations.EncodeIgnoresAlphaAndTrailing : Prop :=
  ∀ (s : State) (j : Nat) (v : Word), s.busy = false → sizesSuffice (sample (encode .enc) s) s = true →
    (elementsUf (sample (encode .enc) s) ≤ j ∨ (s.ch = 4 ∧ j % 4 = 3)) →
    ∃ t, exec .enc s = .next t ∧ exec .enc (s.writeUf j v) = .next (t.writeUf j v)

/-- R162 (the spec's own derivation): for a finite maximum that passes the threshold, `frac × 256` and
the quotient are exact, and the factor is the pattern of `2^(8 - x)`. -/
def Obligations.EncodeFactorIsExactPower : Prop :=
  ∀ m : Word, isFinite m = true → ltThresh m = false →
    20 ≤ (ex m).toNat ∧ (ex m).toNat ≤ 254 ∧ signBit m = false ∧
    value (fmul (fxeMantissa m) c256) = value (fxeMantissa m) * 256 ∧
    value (encFactor m) = value (fmul (fxeMantissa m) c256) / value m ∧
    encFactor m = (BitVec.ofNat 32 (261 - (ex m).toNat)) <<< 23 ∧
    value (encFactor m) = (2 : ℚ) ^ (8 - fxeExponent m)

/-- R163 (the spec's own derivation): the colour bytes in closed form, for a finite maximum `m` that
passes the threshold and each component `c` with `v = value(c) × 2^(8 - x)`. -/
def Obligations.EncodedColourClosedForm : Prop :=
  ∀ r g b : Word, isFinite (max3 r g b) = true → ltThresh (max3 r g b) = false →
    ∀ q ∈ [(r, (encPx r g b).r), (g, (encPx r g b).g), (b, (encPx r g b).b)],
      let v : ℚ := value q.1 * (2 : ℚ) ^ (8 - fxeExponent (max3 r g b))
      (isFinite q.1 = true → |v| < 2 ^ 128 → q.2 = BitVec.ofInt 8 (truncate v)) ∧
      (isFinite q.1 = true → 2 ^ 128 ≤ |v| → v < 0 ∧ q.2 = Config.f2u8NonFinite .negInf) ∧
      (q.1 = 0xFF800000 → q.2 = Config.f2u8NonFinite .negInf) ∧
      (isFinite q.1 = true → 0 ≤ value q.1 → v < 256 ∧ (q.2.toNat : Int) = ⌊v⌋) ∧
      (q.1 = max3 r g b → 128 ≤ q.2.toNat)

/-- R164 (the spec's own derivation): the exponent byte, wrapping at a maximum of 2^127 or more, and
never 2 to 21. -/
def Obligations.EncodedExponentByte : Prop :=
  ∀ r g b : Word,
    (ltThresh (max3 r g b) = false →
      (encPx r g b).e = BitVec.ofNat 8 ((ex (max3 r g b)).toNat + 2)) ∧
    (ltThresh (max3 r g b) = false → (ex (max3 r g b)).toNat ≤ 253 →
      22 ≤ (encPx r g b).e.toNat ∧ ((encPx r g b).e.toNat : Int) = fxeExponent (max3 r g b) + 128) ∧
    (ltThresh (max3 r g b) = false → (ex (max3 r g b)).toNat = 254 → (encPx r g b).e = 0) ∧
    ((ex (max3 r g b)).toNat = 255 → ltThresh (max3 r g b) = false → (encPx r g b).e = 1) ∧
    ((encPx r g b).e.toNat < 2 ∨ 22 ≤ (encPx r g b).e.toNat)

/-- R161: a maximum below the threshold gives four zero bytes. -/
def Obligations.BelowThresholdEncodesZeroPixel : Prop :=
  ∀ r g b : Word, ltThresh (max3 r g b) = true → encPx r g b = ⟨0, 0, 0, 0⟩

/-- R170 (the spec's own derivation): the pixels of non-finite inputs: (a) a maximum of +infinity, (b)
a NaN in `r`, (c) a NaN in `g` or `b` only, (d) -infinity beside a passing finite maximum. -/
def Obligations.EncodedNonFinitePixels : Prop :=
  ∀ r g b : Word,
    (max3 r g b = 0x7F800000 →
      (encPx r g b).e = 1 ∧
      ∀ q ∈ [(r, (encPx r g b).r), (g, (encPx r g b).g), (b, (encPx r g b).b)],
        (isFinite q.1 = true → q.2 = 0) ∧ (isInf q.1 = true → q.2 = Config.f2u8NonFinite .nan)) ∧
    (isNan r = true →
      encPx r g b = ⟨Config.f2u8NonFinite .nan, Config.f2u8NonFinite .nan, Config.f2u8NonFinite .nan, 1⟩) ∧
    (isNan r = false → isNan g = true → ltThresh (max3 r g b) = false →
      (encPx r g b).g = Config.f2u8NonFinite .nan) ∧
    (isNan r = false → isNan b = true → ltThresh (max3 r g b) = false →
      (encPx r g b).b = Config.f2u8NonFinite .nan) ∧
    (isFinite (max3 r g b) = true → ltThresh (max3 r g b) = false →
      ∀ q ∈ [(r, (encPx r g b).r), (g, (encPx r g b).g), (b, (encPx r g b).b)],
        q.1 = 0xFF800000 → q.2 = Config.f2u8NonFinite .negInf)

/-- R172 (the spec's own derivation): decoding an encoded pixel of non-negative finite components with
a maximum from the threshold to below 2^127 gives each component rounded down to a multiple of `2^(x -
8)`; the error is below `2^(x - 8)`, which is at most `m / 128` and more than `m / 256`. -/
def Obligations.RoundTripRoundsDown : Prop :=
  ∀ r g b : Word,
    (∀ c ∈ [r, g, b], isFinite c = true ∧ (signBit c = false ∨ isZero c = true)) →
    ltThresh (max3 r g b) = false → (max3 r g b).toNat < 0x7F000000 →
    let quantum : ℚ := (2 : ℚ) ^ (fxeExponent (max3 r g b) - 8)
    (∀ q ∈ [(r, (decPx (encPx r g b)).r), (g, (decPx (encPx r g b)).g), (b, (decPx (encPx r g b)).b)],
      value q.2 = ⌊value q.1 / quantum⌋ * quantum ∧ value q.2 ≤ value q.1 ∧ value q.1 - value q.2 < quantum) ∧
    quantum ≤ value (max3 r g b) / 128 ∧ value (max3 r g b) / 256 < quantum ∧
    (decPx (encPx r g b)).a = 0x3F800000

/-- R172, last sentence, with R164 (the spec's own derivation): a maximum below the threshold, or a
finite one of 2^127 or more, decodes to zeros. -/
def Obligations.RoundTripOfExtremesIsZero : Prop :=
  ∀ r g b : Word,
    (ltThresh (max3 r g b) = true ∨ (0x7F000000 ≤ (max3 r g b).toNat ∧ (max3 r g b).toNat < 0x7F800000)) →
    decPx (encPx r g b) = ⟨0, 0, 0, 0⟩

/-! ### Order, repetition and independence -/

/-- R64: the destination at completion is the same, as data, for every order in which the pixels are
processed, the ascending order of reference among them. -/
def Obligations.PixelOrderUnobservable : Prop :=
  ∀ (s : State) (order : List Nat), s.pb.wf → s.uf.wf → s.busy = false →
    (sizesSuffice (sample (encode .dec) s) s = true →
      order.Perm (List.range (decCount (sample (encode .dec) s))) →
      ∃ t, exec .dec s = .next t ∧ t.pb = s.pb ∧
        t.uf = (order.foldl (fun u p => decPixel s.ch.toNat p u) s).uf) ∧
    (sizesSuffice (sample (encode .enc) s) s = true →
      order.Perm (List.range (encCount (sample (encode .enc) s))) →
      ∃ t, exec .enc s = .next t ∧ t.uf = s.uf ∧
        t.pb = (order.foldl (fun u p => encPixel s.ch.toNat p u) s).pb)

/-- R56: running the same operation twice leaves what running it once leaves. -/
def Obligations.RepeatingAnOperationChangesNothing : Prop :=
  ∀ (s : State) (i : Instr), s.pb.wf → s.uf.wf → s.busy = false →
    sizesSuffice (sample (encode i) s) s = true →
    ∃ t, exec i s = .next t ∧ exec i t = .next t

/-- R21: the result of an operation is a function of its operand registers and, for `DEC` and `ENC`, of
the source elements alone; result registers, the destination and everything else are never an input. -/
def Obligations.ResultsDependOnOperandsAlone : Prop :=
  ∀ (i : Instr) (s₁ s₂ : State), s₁.busy = false → s₂.busy = false →
    sizesSuffice (sample (encode i) s₁) s₁ = true → sizesSuffice (sample (encode i) s₂) s₂ = true →
    (i = .bfx ∨ i = .bfi ∨ i = .fxs ∨ i = .fxe → s₁.a = s₂.a) →
    (i = .bfi → s₁.b.extractLsb' 0 8 = s₂.b.extractLsb' 0 8) → (i = .fxs → s₁.b = s₂.b) →
    (i = .dec ∨ i = .enc → s₁.ch = s₂.ch ∧ s₁.len = s₂.len) →
    (i = .dec → ∀ k, k < elementsPb (sample (encode i) s₁) → s₁.readPb k = s₂.readPb k) →
    (i = .enc → ∀ k, k < elementsUf (sample (encode i) s₁) → s₁.readUf k = s₂.readUf k) →
    ∃ t₁ t₂, exec i s₁ = .next t₁ ∧ exec i s₂ = .next t₂ ∧ t₁.status = t₂.status ∧
      (i = .bfx ∨ i = .bfi ∨ i = .fxs ∨ i = .fxe → t₁.y0 = t₂.y0) ∧
      (i = .bfx ∨ i = .fxe → t₁.y1 = t₂.y1) ∧
      (i = .dec ∨ i = .enc → t₁.cnt = t₂.cnt) ∧
      (i = .dec → ∀ k, k < elementsUf (sample (encode i) s₁) → t₁.readUf k = t₂.readUf k) ∧
      (i = .enc → ∀ k, k < elementsPb (sample (encode i) s₁) → t₁.readPb k = t₂.readPb k)

/-! ### Issue, progress, completion (spec/10_state.md R31 to R34) -/

/-- R31: a write to `CMD` while idle samples the word and the operands, sets `BUSY` and clears `DONE`;
`PIX` starts at 0 (R36) and nothing else changes. That `CMD` takes the low 32 bits of a 64-bit value is
the model's choice (notes/assumptions/6.md). -/
def Obligations.IssueSamplesOperands : Prop :=
  ∀ (s : State) (rest : List HostAction) (v : DWord),
    s.inputs = .write .cmd v :: rest → s.busy = false →
    sizesSuffice (sample (v.setWidth 32) s) s = true →
    step s = .next { s with
      inputs := rest, status := 0x1,
      running := some { cmd := v.setWidth 32, a := s.a, b := s.b, ch := s.ch, len := s.len, pix := 0 } }

/-- R31: nothing but a write to `CMD` starts an operation. -/
def Obligations.OnlyCommandWriteStarts : Prop :=
  ∀ s t : State, step s = .next t → s.running = none → t.running ≠ none →
    ∃ v rest, s.inputs = .write .cmd v :: rest

/-- R33, R36, R232: an operation in progress stays busy for exactly the pixels it has left and then
completes, with the host doing nothing. That a pixel is a step is R232's example and the model's choice
(notes/assumptions/1.md). -/
def Obligations.OperationCompletesInBoundedSteps : Prop :=
  ∀ (s : State) (r : Running), Inv s → s.running = some r → s.inputs = [] →
    (∀ n, n ≤ pixelCount r - r.pix →
      ∃ t, Sys2Proof.core.run n s = .next t ∧ State.busy t = true ∧
        State.running t = some { r with pix := r.pix + n }) ∧
    ∃ t, Sys2Proof.core.run (pixelCount r - r.pix + 1) s = .next t ∧ State.status t = 0x2 ∧
      State.running t = none

/-- R65: to the host, an operation is one atomic transition: writing `CMD` and giving the codec its
pixel steps and its completion step comes to the same outcome as the command taken in one step,
refusals included. That a pixel is a step, and so the count of steps, is the model's choice
(notes/assumptions/1.md). -/
def Obligations.OperationIsAtomicToHost : Prop :=
  ∀ (s : State) (w : Word) (rest : List HostAction),
    Sys2Proof.core.run (pixelCount (sample w s) + 2)
        { s with inputs :=
            .write .cmd (w.setWidth 64) ::
              (List.replicate (pixelCount (sample w s) + 1) HostAction.codec ++ rest) } =
      step { s with inputs := .command w :: rest }

/-- R24, R36, R31, R51, R60: the invariant, kept by every step whatever the host does. -/
def Obligations.StepKeepsInv : Prop := ∀ s t : State, Inv s → step s = .next t → Inv t

/-- The invariant holds right after reset. -/
def Obligations.ResetMeetsInv : Prop := Inv State.reset

/-! ### The host's interface and reset -/

/-- R42, R22: after reset all nine registers read as zero, no operation is running and nothing has
written either space. -/
def Obligations.ResetRegistersReadZero : Prop :=
  (∀ r : Reg, readReg r State.reset = 0) ∧ State.reset.busy = false ∧ State.reset.done = false ∧
  State.reset.running = none ∧ State.reset.pb = [] ∧ State.reset.uf = []

/-- R42, R220: a reset of an idle codec zeroes the registers and leaves both spaces as they are. That it
keeps the sizes and the model's own fields is the model's choice (notes/assumptions/15.md). -/
def Obligations.ResetWhileIdle : Prop :=
  ∀ (s : State) (rest : List HostAction), s.inputs = .reset :: rest → s.running = none →
    step s = .next { State.reset with
      pb := s.pb, uf := s.uf, pbSize := s.pbSize, ufSize := s.ufSize,
      inputs := rest, rdata := s.rdata, draws := s.draws }

/-- R42, U10: a reset during an operation abandons it; every element it could not have written keeps
its value. Nothing is said of the destination elements: their values are free
(notes/assumptions/5.md). That the reset keeps the sizes and the host's remaining actions is the
model's choice (notes/assumptions/15.md). -/
def Obligations.ResetDuringOperation : Prop :=
  ∀ (s : State) (rest : List HostAction) (r : Running), s.inputs = .reset :: rest → s.running = some r →
    ∃ t, step s = .next t ∧ (∀ g : Reg, readReg g t = 0) ∧ t.running = none ∧ t.inputs = rest ∧
      t.pbSize = s.pbSize ∧ t.ufSize = s.ufSize ∧
      (∀ i, (decode r.cmd = .ok .enc → elementsPb r ≤ i) → t.readPb i = s.readPb i) ∧
      (∀ j, (decode r.cmd = .ok .dec → elementsUf r ≤ j) → t.readUf j = s.readUf j)

/-- R22, R23: what a host register write does while idle: the operand registers take the value, the
read-only ones ignore it, no other register and no memory changes. That a 32-bit register takes the
low 32 bits of the 64-bit value is the model's choice (notes/assumptions/6.md). -/
def Obligations.HostRegisterWrite : Prop :=
  ∀ (s : State) (rest : List HostAction) (g : Reg) (v : DWord),
    s.inputs = .write g v :: rest → s.busy = false → g ≠ .cmd →
    ∃ t, step s = .next t ∧
      readReg g t = (match g with
        | .a => (v.setWidth 32).setWidth 64
        | .b => (v.setWidth 32).setWidth 64
        | .ch => v
        | .len => v
        | .cmd => readReg g s
        | .status => readReg g s
        | .y0 => readReg g s
        | .y1 => readReg g s
        | .cnt => readReg g s) ∧
      (∀ g' : Reg, g' ≠ g → readReg g' t = readReg g' s) ∧
      t.pb = s.pb ∧ t.uf = s.uf ∧ t.running = s.running ∧ t.inputs = rest

/-- R22, R23, R32: a host register read returns the register (`CMD` reads as 0) and changes nothing
else; `STATUS` may be read at any time. The zero-extension to 64 bits is the model's choice
(notes/assumptions/6.md). -/
def Obligations.HostRegisterRead : Prop :=
  ∀ (s : State) (rest : List HostAction) (g : Reg),
    s.inputs = .read g :: rest → s.busy = false ∨ g = .status →
    step s = .next { s with inputs := rest, rdata := readReg g s } ∧ readReg .cmd s = 0

/-- R32, R65(c), U9, U14: while `BUSY = 1` every host action but a read of `STATUS`, a reset and leaving
the codec a turn is refused, the treatment of U9 and U14 (notes/assumptions/8.md). -/
def Obligations.BusyHostRefused : Prop :=
  ∀ (s : State) (x : HostAction) (rest : List HostAction), s.inputs = x :: rest → s.busy = true →
    x ≠ .read .status → x ≠ .codec → x ≠ .reset → step s = .refused .hostActsWhileBusy

/-- R20, R56, R62: the host's accesses to its buffers while idle: a write changes the one element, a
read returns it, and an element the caller did not allocate is refused (R13, R60; the model's choice,
notes/assumptions/16.md). That a read leaves the element zero-extended to 64 bits in the model's field
`rdata` is the model's choice too (notes/assumptions/6.md). -/
def Obligations.HostBufferAccess : Prop :=
  ∀ (s : State) (rest : List HostAction) (i : Nat), s.busy = false →
    (∀ v : Byte, s.inputs = .writePb i v :: rest → i < s.pbSize.val →
      ∃ t, step s = .next t ∧ t.readPb i = v ∧ (∀ k, k ≠ i → t.readPb k = s.readPb k) ∧
        t = { s with inputs := rest, pb := t.pb }) ∧
    (∀ v : Word, s.inputs = .writeUf i v :: rest → i < s.ufSize.val →
      ∃ t, step s = .next t ∧ t.readUf i = v ∧ (∀ k, k ≠ i → t.readUf k = s.readUf k) ∧
        t = { s with inputs := rest, uf := t.uf }) ∧
    (s.inputs = .readPb i :: rest → i < s.pbSize.val →
      step s = .next { s with inputs := rest, rdata := (s.readPb i).setWidth 64 }) ∧
    (s.inputs = .readUf i :: rest → i < s.ufSize.val →
      step s = .next { s with inputs := rest, rdata := (s.readUf i).setWidth 64 }) ∧
    (∀ v : Byte, s.inputs = .writePb i v :: rest → s.pbSize.val ≤ i → step s = .refused .outsideBuffer) ∧
    (∀ v : Word, s.inputs = .writeUf i v :: rest → s.ufSize.val ≤ i → step s = .refused .outsideBuffer) ∧
    (s.inputs = .readPb i :: rest → s.pbSize.val ≤ i → step s = .refused .outsideBuffer) ∧
    (s.inputs = .readUf i :: rest → s.ufSize.val ≤ i → step s = .refused .outsideBuffer)

/-- R212, R220: an idle codec with no host action to take holds its state; which agent moves is the
model's choice (notes/assumptions/2.md, notes/assumptions/17.md). -/
def Obligations.IdleCodecHolds : Prop :=
  ∀ s : State, s.inputs = [] → s.running = none → step s = .next s
end

