-- ==== Sys2Proof/Laws/Fields.lean ====
section
/-! SUPPORT. What the fields of a pattern and `SM`, `EX`, `INS` are, once each: as numbers, and how the
fields of `SM` and `INS` come out (spec/40_bitfield.md R110 to R112). -/

namespace Sys2Proof.Machine

theorem ex_toNat (b : Word) : (ex b).toNat = b.toNat / 2 ^ 23 % 256 := by
  have h := Nat.and_two_pow_sub_one_eq_mod (b.toNat / 2 ^ 23) 8
  simp only [ex, BitVec.toNat_setWidth, BitVec.toNat_and, BitVec.toNat_ushiftRight, Nat.shiftRight_eq_div_pow]
  have h255 : (BitVec.toNat (0xff : Word)) = 2 ^ 8 - 1 := rfl
  rw [h255, h]
  omega

theorem fracField_toNat (b : Word) : (fracField b).toNat = b.toNat % 2 ^ 23 := by
  simp [fracField, BitVec.extractLsb'_toNat]

theorem signBit_eq (b : Word) : signBit b = decide (2 ^ 31 ≤ b.toNat) := by
  have := b.isLt
  simp only [signBit, BitVec.getLsbD, Nat.testBit_eq_decide_div_mod_eq]
  congr 1
  simp only [eq_iff_iff]
  omega

theorem pattern_toNat (b : Word) : b.toNat = (signBit b).toNat * 2 ^ 31 + (ex b).toNat * 2 ^ 23 + (fracField b).toNat := by
  rw [ex_toNat, fracField_toNat, signBit_eq]
  have := b.isLt
  by_cases h : 2 ^ 31 ≤ b.toNat
  · simp only [h, decide_true, Bool.toNat_true]; omega
  · simp only [h, decide_false, Bool.toNat_false]; omega

theorem pattern_ext {a b : Word} (hs : signBit a = signBit b) (he : ex a = ex b)
    (hf : fracField a = fracField b) : a = b := by
  apply BitVec.eq_of_toNat_eq
  rw [pattern_toNat a, pattern_toNat b, hs, he, hf]

theorem signBit_ins (b : Word) (e : Byte) : signBit (ins b e) = signBit b := by
  simp [signBit, ins]

theorem fracField_ins (b : Word) (e : Byte) : fracField (ins b e) = fracField b := by
  apply BitVec.eq_of_getLsbD_eq
  intro i hi
  interval_cases i <;> simp [fracField, ins]

theorem ex_ins (b : Word) (e : Byte) : ex (ins b e) = e := by
  apply BitVec.eq_of_getLsbD_eq
  intro i hi
  interval_cases i <;> simp [ex, ins]

theorem signBit_sm (b : Word) : signBit (sm b) = signBit b := by
  simp [signBit, sm]

theorem ex_sm (b : Word) : ex (sm b) = 0 := by
  apply BitVec.eq_of_getLsbD_eq
  intro i hi
  interval_cases i <;> simp [ex, sm]

theorem fracField_sm (b : Word) : fracField (sm b) = fracField b := by
  apply BitVec.eq_of_getLsbD_eq
  intro i hi
  interval_cases i <;> simp [fracField, sm]

end Sys2Proof.Machine
end

