-- ==== Sys2Proof/Laws/State.lean ====
section
/-! SUPPORT. One lemma per field per update: what each setter of Machine/Ops.lean changes and keeps. -/

namespace Sys2Proof.Machine

@[simp] theorem State.setStatus_status (s : State) (v : Word) : (s.setStatus v).status = v := rfl
@[simp] theorem State.setStatus_a (s : State) (v : Word) : (s.setStatus v).a = s.a := rfl
@[simp] theorem State.setStatus_b (s : State) (v : Word) : (s.setStatus v).b = s.b := rfl
@[simp] theorem State.setStatus_y0 (s : State) (v : Word) : (s.setStatus v).y0 = s.y0 := rfl
@[simp] theorem State.setStatus_y1 (s : State) (v : Word) : (s.setStatus v).y1 = s.y1 := rfl
@[simp] theorem State.setStatus_ch (s : State) (v : Word) : (s.setStatus v).ch = s.ch := rfl
@[simp] theorem State.setStatus_len (s : State) (v : Word) : (s.setStatus v).len = s.len := rfl
@[simp] theorem State.setStatus_cnt (s : State) (v : Word) : (s.setStatus v).cnt = s.cnt := rfl
@[simp] theorem State.setStatus_pb (s : State) (v : Word) : (s.setStatus v).pb = s.pb := rfl
@[simp] theorem State.setStatus_uf (s : State) (v : Word) : (s.setStatus v).uf = s.uf := rfl
@[simp] theorem State.setStatus_pbSize (s : State) (v : Word) : (s.setStatus v).pbSize = s.pbSize := rfl
@[simp] theorem State.setStatus_ufSize (s : State) (v : Word) : (s.setStatus v).ufSize = s.ufSize := rfl
@[simp] theorem State.setStatus_running (s : State) (v : Word) : (s.setStatus v).running = s.running := rfl
@[simp] theorem State.setStatus_inputs (s : State) (v : Word) : (s.setStatus v).inputs = s.inputs := rfl
@[simp] theorem State.setStatus_rdata (s : State) (v : Word) : (s.setStatus v).rdata = s.rdata := rfl
@[simp] theorem State.setStatus_draws (s : State) (v : Word) : (s.setStatus v).draws = s.draws := rfl

@[simp] theorem State.setA_status (s : State) (v : Word) : (s.setA v).status = s.status := rfl
@[simp] theorem State.setA_a (s : State) (v : Word) : (s.setA v).a = v := rfl
@[simp] theorem State.setA_b (s : State) (v : Word) : (s.setA v).b = s.b := rfl
@[simp] theorem State.setA_y0 (s : State) (v : Word) : (s.setA v).y0 = s.y0 := rfl
@[simp] theorem State.setA_y1 (s : State) (v : Word) : (s.setA v).y1 = s.y1 := rfl
@[simp] theorem State.setA_ch (s : State) (v : Word) : (s.setA v).ch = s.ch := rfl
@[simp] theorem State.setA_len (s : State) (v : Word) : (s.setA v).len = s.len := rfl
@[simp] theorem State.setA_cnt (s : State) (v : Word) : (s.setA v).cnt = s.cnt := rfl
@[simp] theorem State.setA_pb (s : State) (v : Word) : (s.setA v).pb = s.pb := rfl
@[simp] theorem State.setA_uf (s : State) (v : Word) : (s.setA v).uf = s.uf := rfl
@[simp] theorem State.setA_pbSize (s : State) (v : Word) : (s.setA v).pbSize = s.pbSize := rfl
@[simp] theorem State.setA_ufSize (s : State) (v : Word) : (s.setA v).ufSize = s.ufSize := rfl
@[simp] theorem State.setA_running (s : State) (v : Word) : (s.setA v).running = s.running := rfl
@[simp] theorem State.setA_inputs (s : State) (v : Word) : (s.setA v).inputs = s.inputs := rfl
@[simp] theorem State.setA_rdata (s : State) (v : Word) : (s.setA v).rdata = s.rdata := rfl
@[simp] theorem State.setA_draws (s : State) (v : Word) : (s.setA v).draws = s.draws := rfl

@[simp] theorem State.setB_status (s : State) (v : Word) : (s.setB v).status = s.status := rfl
@[simp] theorem State.setB_a (s : State) (v : Word) : (s.setB v).a = s.a := rfl
@[simp] theorem State.setB_b (s : State) (v : Word) : (s.setB v).b = v := rfl
@[simp] theorem State.setB_y0 (s : State) (v : Word) : (s.setB v).y0 = s.y0 := rfl
@[simp] theorem State.setB_y1 (s : State) (v : Word) : (s.setB v).y1 = s.y1 := rfl
@[simp] theorem State.setB_ch (s : State) (v : Word) : (s.setB v).ch = s.ch := rfl
@[simp] theorem State.setB_len (s : State) (v : Word) : (s.setB v).len = s.len := rfl
@[simp] theorem State.setB_cnt (s : State) (v : Word) : (s.setB v).cnt = s.cnt := rfl
@[simp] theorem State.setB_pb (s : State) (v : Word) : (s.setB v).pb = s.pb := rfl
@[simp] theorem State.setB_uf (s : State) (v : Word) : (s.setB v).uf = s.uf := rfl
@[simp] theorem State.setB_pbSize (s : State) (v : Word) : (s.setB v).pbSize = s.pbSize := rfl
@[simp] theorem State.setB_ufSize (s : State) (v : Word) : (s.setB v).ufSize = s.ufSize := rfl
@[simp] theorem State.setB_running (s : State) (v : Word) : (s.setB v).running = s.running := rfl
@[simp] theorem State.setB_inputs (s : State) (v : Word) : (s.setB v).inputs = s.inputs := rfl
@[simp] theorem State.setB_rdata (s : State) (v : Word) : (s.setB v).rdata = s.rdata := rfl
@[simp] theorem State.setB_draws (s : State) (v : Word) : (s.setB v).draws = s.draws := rfl

@[simp] theorem State.setY0_status (s : State) (v : Word) : (s.setY0 v).status = s.status := rfl
@[simp] theorem State.setY0_a (s : State) (v : Word) : (s.setY0 v).a = s.a := rfl
@[simp] theorem State.setY0_b (s : State) (v : Word) : (s.setY0 v).b = s.b := rfl
@[simp] theorem State.setY0_y0 (s : State) (v : Word) : (s.setY0 v).y0 = v := rfl
@[simp] theorem State.setY0_y1 (s : State) (v : Word) : (s.setY0 v).y1 = s.y1 := rfl
@[simp] theorem State.setY0_ch (s : State) (v : Word) : (s.setY0 v).ch = s.ch := rfl
@[simp] theorem State.setY0_len (s : State) (v : Word) : (s.setY0 v).len = s.len := rfl
@[simp] theorem State.setY0_cnt (s : State) (v : Word) : (s.setY0 v).cnt = s.cnt := rfl
@[simp] theorem State.setY0_pb (s : State) (v : Word) : (s.setY0 v).pb = s.pb := rfl
@[simp] theorem State.setY0_uf (s : State) (v : Word) : (s.setY0 v).uf = s.uf := rfl
@[simp] theorem State.setY0_pbSize (s : State) (v : Word) : (s.setY0 v).pbSize = s.pbSize := rfl
@[simp] theorem State.setY0_ufSize (s : State) (v : Word) : (s.setY0 v).ufSize = s.ufSize := rfl
@[simp] theorem State.setY0_running (s : State) (v : Word) : (s.setY0 v).running = s.running := rfl
@[simp] theorem State.setY0_inputs (s : State) (v : Word) : (s.setY0 v).inputs = s.inputs := rfl
@[simp] theorem State.setY0_rdata (s : State) (v : Word) : (s.setY0 v).rdata = s.rdata := rfl
@[simp] theorem State.setY0_draws (s : State) (v : Word) : (s.setY0 v).draws = s.draws := rfl

@[simp] theorem State.setY1_status (s : State) (v : Word) : (s.setY1 v).status = s.status := rfl
@[simp] theorem State.setY1_a (s : State) (v : Word) : (s.setY1 v).a = s.a := rfl
@[simp] theorem State.setY1_b (s : State) (v : Word) : (s.setY1 v).b = s.b := rfl
@[simp] theorem State.setY1_y0 (s : State) (v : Word) : (s.setY1 v).y0 = s.y0 := rfl
@[simp] theorem State.setY1_y1 (s : State) (v : Word) : (s.setY1 v).y1 = v := rfl
@[simp] theorem State.setY1_ch (s : State) (v : Word) : (s.setY1 v).ch = s.ch := rfl
@[simp] theorem State.setY1_len (s : State) (v : Word) : (s.setY1 v).len = s.len := rfl
@[simp] theorem State.setY1_cnt (s : State) (v : Word) : (s.setY1 v).cnt = s.cnt := rfl
@[simp] theorem State.setY1_pb (s : State) (v : Word) : (s.setY1 v).pb = s.pb := rfl
@[simp] theorem State.setY1_uf (s : State) (v : Word) : (s.setY1 v).uf = s.uf := rfl
@[simp] theorem State.setY1_pbSize (s : State) (v : Word) : (s.setY1 v).pbSize = s.pbSize := rfl
@[simp] theorem State.setY1_ufSize (s : State) (v : Word) : (s.setY1 v).ufSize = s.ufSize := rfl
@[simp] theorem State.setY1_running (s : State) (v : Word) : (s.setY1 v).running = s.running := rfl
@[simp] theorem State.setY1_inputs (s : State) (v : Word) : (s.setY1 v).inputs = s.inputs := rfl
@[simp] theorem State.setY1_rdata (s : State) (v : Word) : (s.setY1 v).rdata = s.rdata := rfl
@[simp] theorem State.setY1_draws (s : State) (v : Word) : (s.setY1 v).draws = s.draws := rfl

@[simp] theorem State.setCh_status (s : State) (v : DWord) : (s.setCh v).status = s.status := rfl
@[simp] theorem State.setCh_a (s : State) (v : DWord) : (s.setCh v).a = s.a := rfl
@[simp] theorem State.setCh_b (s : State) (v : DWord) : (s.setCh v).b = s.b := rfl
@[simp] theorem State.setCh_y0 (s : State) (v : DWord) : (s.setCh v).y0 = s.y0 := rfl
@[simp] theorem State.setCh_y1 (s : State) (v : DWord) : (s.setCh v).y1 = s.y1 := rfl
@[simp] theorem State.setCh_ch (s : State) (v : DWord) : (s.setCh v).ch = v := rfl
@[simp] theorem State.setCh_len (s : State) (v : DWord) : (s.setCh v).len = s.len := rfl
@[simp] theorem State.setCh_cnt (s : State) (v : DWord) : (s.setCh v).cnt = s.cnt := rfl
@[simp] theorem State.setCh_pb (s : State) (v : DWord) : (s.setCh v).pb = s.pb := rfl
@[simp] theorem State.setCh_uf (s : State) (v : DWord) : (s.setCh v).uf = s.uf := rfl
@[simp] theorem State.setCh_pbSize (s : State) (v : DWord) : (s.setCh v).pbSize = s.pbSize := rfl
@[simp] theorem State.setCh_ufSize (s : State) (v : DWord) : (s.setCh v).ufSize = s.ufSize := rfl
@[simp] theorem State.setCh_running (s : State) (v : DWord) : (s.setCh v).running = s.running := rfl
@[simp] theorem State.setCh_inputs (s : State) (v : DWord) : (s.setCh v).inputs = s.inputs := rfl
@[simp] theorem State.setCh_rdata (s : State) (v : DWord) : (s.setCh v).rdata = s.rdata := rfl
@[simp] theorem State.setCh_draws (s : State) (v : DWord) : (s.setCh v).draws = s.draws := rfl

@[simp] theorem State.setLen_status (s : State) (v : DWord) : (s.setLen v).status = s.status := rfl
@[simp] theorem State.setLen_a (s : State) (v : DWord) : (s.setLen v).a = s.a := rfl
@[simp] theorem State.setLen_b (s : State) (v : DWord) : (s.setLen v).b = s.b := rfl
@[simp] theorem State.setLen_y0 (s : State) (v : DWord) : (s.setLen v).y0 = s.y0 := rfl
@[simp] theorem State.setLen_y1 (s : State) (v : DWord) : (s.setLen v).y1 = s.y1 := rfl
@[simp] theorem State.setLen_ch (s : State) (v : DWord) : (s.setLen v).ch = s.ch := rfl
@[simp] theorem State.setLen_len (s : State) (v : DWord) : (s.setLen v).len = v := rfl
@[simp] theorem State.setLen_cnt (s : State) (v : DWord) : (s.setLen v).cnt = s.cnt := rfl
@[simp] theorem State.setLen_pb (s : State) (v : DWord) : (s.setLen v).pb = s.pb := rfl
@[simp] theorem State.setLen_uf (s : State) (v : DWord) : (s.setLen v).uf = s.uf := rfl
@[simp] theorem State.setLen_pbSize (s : State) (v : DWord) : (s.setLen v).pbSize = s.pbSize := rfl
@[simp] theorem State.setLen_ufSize (s : State) (v : DWord) : (s.setLen v).ufSize = s.ufSize := rfl
@[simp] theorem State.setLen_running (s : State) (v : DWord) : (s.setLen v).running = s.running := rfl
@[simp] theorem State.setLen_inputs (s : State) (v : DWord) : (s.setLen v).inputs = s.inputs := rfl
@[simp] theorem State.setLen_rdata (s : State) (v : DWord) : (s.setLen v).rdata = s.rdata := rfl
@[simp] theorem State.setLen_draws (s : State) (v : DWord) : (s.setLen v).draws = s.draws := rfl

@[simp] theorem State.setCnt_status (s : State) (v : DWord) : (s.setCnt v).status = s.status := rfl
@[simp] theorem State.setCnt_a (s : State) (v : DWord) : (s.setCnt v).a = s.a := rfl
@[simp] theorem State.setCnt_b (s : State) (v : DWord) : (s.setCnt v).b = s.b := rfl
@[simp] theorem State.setCnt_y0 (s : State) (v : DWord) : (s.setCnt v).y0 = s.y0 := rfl
@[simp] theorem State.setCnt_y1 (s : State) (v : DWord) : (s.setCnt v).y1 = s.y1 := rfl
@[simp] theorem State.setCnt_ch (s : State) (v : DWord) : (s.setCnt v).ch = s.ch := rfl
@[simp] theorem State.setCnt_len (s : State) (v : DWord) : (s.setCnt v).len = s.len := rfl
@[simp] theorem State.setCnt_cnt (s : State) (v : DWord) : (s.setCnt v).cnt = v := rfl
@[simp] theorem State.setCnt_pb (s : State) (v : DWord) : (s.setCnt v).pb = s.pb := rfl
@[simp] theorem State.setCnt_uf (s : State) (v : DWord) : (s.setCnt v).uf = s.uf := rfl
@[simp] theorem State.setCnt_pbSize (s : State) (v : DWord) : (s.setCnt v).pbSize = s.pbSize := rfl
@[simp] theorem State.setCnt_ufSize (s : State) (v : DWord) : (s.setCnt v).ufSize = s.ufSize := rfl
@[simp] theorem State.setCnt_running (s : State) (v : DWord) : (s.setCnt v).running = s.running := rfl
@[simp] theorem State.setCnt_inputs (s : State) (v : DWord) : (s.setCnt v).inputs = s.inputs := rfl
@[simp] theorem State.setCnt_rdata (s : State) (v : DWord) : (s.setCnt v).rdata = s.rdata := rfl
@[simp] theorem State.setCnt_draws (s : State) (v : DWord) : (s.setCnt v).draws = s.draws := rfl

@[simp] theorem State.setPb_status (s : State) (v : Memory 8) : (s.setPb v).status = s.status := rfl
@[simp] theorem State.setPb_a (s : State) (v : Memory 8) : (s.setPb v).a = s.a := rfl
@[simp] theorem State.setPb_b (s : State) (v : Memory 8) : (s.setPb v).b = s.b := rfl
@[simp] theorem State.setPb_y0 (s : State) (v : Memory 8) : (s.setPb v).y0 = s.y0 := rfl
@[simp] theorem State.setPb_y1 (s : State) (v : Memory 8) : (s.setPb v).y1 = s.y1 := rfl
@[simp] theorem State.setPb_ch (s : State) (v : Memory 8) : (s.setPb v).ch = s.ch := rfl
@[simp] theorem State.setPb_len (s : State) (v : Memory 8) : (s.setPb v).len = s.len := rfl
@[simp] theorem State.setPb_cnt (s : State) (v : Memory 8) : (s.setPb v).cnt = s.cnt := rfl
@[simp] theorem State.setPb_pb (s : State) (v : Memory 8) : (s.setPb v).pb = v := rfl
@[simp] theorem State.setPb_uf (s : State) (v : Memory 8) : (s.setPb v).uf = s.uf := rfl
@[simp] theorem State.setPb_pbSize (s : State) (v : Memory 8) : (s.setPb v).pbSize = s.pbSize := rfl
@[simp] theorem State.setPb_ufSize (s : State) (v : Memory 8) : (s.setPb v).ufSize = s.ufSize := rfl
@[simp] theorem State.setPb_running (s : State) (v : Memory 8) : (s.setPb v).running = s.running := rfl
@[simp] theorem State.setPb_inputs (s : State) (v : Memory 8) : (s.setPb v).inputs = s.inputs := rfl
@[simp] theorem State.setPb_rdata (s : State) (v : Memory 8) : (s.setPb v).rdata = s.rdata := rfl
@[simp] theorem State.setPb_draws (s : State) (v : Memory 8) : (s.setPb v).draws = s.draws := rfl

@[simp] theorem State.setUf_status (s : State) (v : Memory 32) : (s.setUf v).status = s.status := rfl
@[simp] theorem State.setUf_a (s : State) (v : Memory 32) : (s.setUf v).a = s.a := rfl
@[simp] theorem State.setUf_b (s : State) (v : Memory 32) : (s.setUf v).b = s.b := rfl
@[simp] theorem State.setUf_y0 (s : State) (v : Memory 32) : (s.setUf v).y0 = s.y0 := rfl
@[simp] theorem State.setUf_y1 (s : State) (v : Memory 32) : (s.setUf v).y1 = s.y1 := rfl
@[simp] theorem State.setUf_ch (s : State) (v : Memory 32) : (s.setUf v).ch = s.ch := rfl
@[simp] theorem State.setUf_len (s : State) (v : Memory 32) : (s.setUf v).len = s.len := rfl
@[simp] theorem State.setUf_cnt (s : State) (v : Memory 32) : (s.setUf v).cnt = s.cnt := rfl
@[simp] theorem State.setUf_pb (s : State) (v : Memory 32) : (s.setUf v).pb = s.pb := rfl
@[simp] theorem State.setUf_uf (s : State) (v : Memory 32) : (s.setUf v).uf = v := rfl
@[simp] theorem State.setUf_pbSize (s : State) (v : Memory 32) : (s.setUf v).pbSize = s.pbSize := rfl
@[simp] theorem State.setUf_ufSize (s : State) (v : Memory 32) : (s.setUf v).ufSize = s.ufSize := rfl
@[simp] theorem State.setUf_running (s : State) (v : Memory 32) : (s.setUf v).running = s.running := rfl
@[simp] theorem State.setUf_inputs (s : State) (v : Memory 32) : (s.setUf v).inputs = s.inputs := rfl
@[simp] theorem State.setUf_rdata (s : State) (v : Memory 32) : (s.setUf v).rdata = s.rdata := rfl
@[simp] theorem State.setUf_draws (s : State) (v : Memory 32) : (s.setUf v).draws = s.draws := rfl

@[simp] theorem State.setRunning_status (s : State) (v : Option Running) : (s.setRunning v).status = s.status := rfl
@[simp] theorem State.setRunning_a (s : State) (v : Option Running) : (s.setRunning v).a = s.a := rfl
@[simp] theorem State.setRunning_b (s : State) (v : Option Running) : (s.setRunning v).b = s.b := rfl
@[simp] theorem State.setRunning_y0 (s : State) (v : Option Running) : (s.setRunning v).y0 = s.y0 := rfl
@[simp] theorem State.setRunning_y1 (s : State) (v : Option Running) : (s.setRunning v).y1 = s.y1 := rfl
@[simp] theorem State.setRunning_ch (s : State) (v : Option Running) : (s.setRunning v).ch = s.ch := rfl
@[simp] theorem State.setRunning_len (s : State) (v : Option Running) : (s.setRunning v).len = s.len := rfl
@[simp] theorem State.setRunning_cnt (s : State) (v : Option Running) : (s.setRunning v).cnt = s.cnt := rfl
@[simp] theorem State.setRunning_pb (s : State) (v : Option Running) : (s.setRunning v).pb = s.pb := rfl
@[simp] theorem State.setRunning_uf (s : State) (v : Option Running) : (s.setRunning v).uf = s.uf := rfl
@[simp] theorem State.setRunning_pbSize (s : State) (v : Option Running) : (s.setRunning v).pbSize = s.pbSize := rfl
@[simp] theorem State.setRunning_ufSize (s : State) (v : Option Running) : (s.setRunning v).ufSize = s.ufSize := rfl
@[simp] theorem State.setRunning_running (s : State) (v : Option Running) : (s.setRunning v).running = v := rfl
@[simp] theorem State.setRunning_inputs (s : State) (v : Option Running) : (s.setRunning v).inputs = s.inputs := rfl
@[simp] theorem State.setRunning_rdata (s : State) (v : Option Running) : (s.setRunning v).rdata = s.rdata := rfl
@[simp] theorem State.setRunning_draws (s : State) (v : Option Running) : (s.setRunning v).draws = s.draws := rfl

@[simp] theorem State.setInputs_status (s : State) (v : List HostAction) : (s.setInputs v).status = s.status := rfl
@[simp] theorem State.setInputs_a (s : State) (v : List HostAction) : (s.setInputs v).a = s.a := rfl
@[simp] theorem State.setInputs_b (s : State) (v : List HostAction) : (s.setInputs v).b = s.b := rfl
@[simp] theorem State.setInputs_y0 (s : State) (v : List HostAction) : (s.setInputs v).y0 = s.y0 := rfl
@[simp] theorem State.setInputs_y1 (s : State) (v : List HostAction) : (s.setInputs v).y1 = s.y1 := rfl
@[simp] theorem State.setInputs_ch (s : State) (v : List HostAction) : (s.setInputs v).ch = s.ch := rfl
@[simp] theorem State.setInputs_len (s : State) (v : List HostAction) : (s.setInputs v).len = s.len := rfl
@[simp] theorem State.setInputs_cnt (s : State) (v : List HostAction) : (s.setInputs v).cnt = s.cnt := rfl
@[simp] theorem State.setInputs_pb (s : State) (v : List HostAction) : (s.setInputs v).pb = s.pb := rfl
@[simp] theorem State.setInputs_uf (s : State) (v : List HostAction) : (s.setInputs v).uf = s.uf := rfl
@[simp] theorem State.setInputs_pbSize (s : State) (v : List HostAction) : (s.setInputs v).pbSize = s.pbSize := rfl
@[simp] theorem State.setInputs_ufSize (s : State) (v : List HostAction) : (s.setInputs v).ufSize = s.ufSize := rfl
@[simp] theorem State.setInputs_running (s : State) (v : List HostAction) : (s.setInputs v).running = s.running := rfl
@[simp] theorem State.setInputs_inputs (s : State) (v : List HostAction) : (s.setInputs v).inputs = v := rfl
@[simp] theorem State.setInputs_rdata (s : State) (v : List HostAction) : (s.setInputs v).rdata = s.rdata := rfl
@[simp] theorem State.setInputs_draws (s : State) (v : List HostAction) : (s.setInputs v).draws = s.draws := rfl

@[simp] theorem State.setRdata_status (s : State) (v : DWord) : (s.setRdata v).status = s.status := rfl
@[simp] theorem State.setRdata_a (s : State) (v : DWord) : (s.setRdata v).a = s.a := rfl
@[simp] theorem State.setRdata_b (s : State) (v : DWord) : (s.setRdata v).b = s.b := rfl
@[simp] theorem State.setRdata_y0 (s : State) (v : DWord) : (s.setRdata v).y0 = s.y0 := rfl
@[simp] theorem State.setRdata_y1 (s : State) (v : DWord) : (s.setRdata v).y1 = s.y1 := rfl
@[simp] theorem State.setRdata_ch (s : State) (v : DWord) : (s.setRdata v).ch = s.ch := rfl
@[simp] theorem State.setRdata_len (s : State) (v : DWord) : (s.setRdata v).len = s.len := rfl
@[simp] theorem State.setRdata_cnt (s : State) (v : DWord) : (s.setRdata v).cnt = s.cnt := rfl
@[simp] theorem State.setRdata_pb (s : State) (v : DWord) : (s.setRdata v).pb = s.pb := rfl
@[simp] theorem State.setRdata_uf (s : State) (v : DWord) : (s.setRdata v).uf = s.uf := rfl
@[simp] theorem State.setRdata_pbSize (s : State) (v : DWord) : (s.setRdata v).pbSize = s.pbSize := rfl
@[simp] theorem State.setRdata_ufSize (s : State) (v : DWord) : (s.setRdata v).ufSize = s.ufSize := rfl
@[simp] theorem State.setRdata_running (s : State) (v : DWord) : (s.setRdata v).running = s.running := rfl
@[simp] theorem State.setRdata_inputs (s : State) (v : DWord) : (s.setRdata v).inputs = s.inputs := rfl
@[simp] theorem State.setRdata_rdata (s : State) (v : DWord) : (s.setRdata v).rdata = v := rfl
@[simp] theorem State.setRdata_draws (s : State) (v : DWord) : (s.setRdata v).draws = s.draws := rfl

@[simp] theorem State.setDraws_status (s : State) (v : Nat) : (s.setDraws v).status = s.status := rfl
@[simp] theorem State.setDraws_a (s : State) (v : Nat) : (s.setDraws v).a = s.a := rfl
@[simp] theorem State.setDraws_b (s : State) (v : Nat) : (s.setDraws v).b = s.b := rfl
@[simp] theorem State.setDraws_y0 (s : State) (v : Nat) : (s.setDraws v).y0 = s.y0 := rfl
@[simp] theorem State.setDraws_y1 (s : State) (v : Nat) : (s.setDraws v).y1 = s.y1 := rfl
@[simp] theorem State.setDraws_ch (s : State) (v : Nat) : (s.setDraws v).ch = s.ch := rfl
@[simp] theorem State.setDraws_len (s : State) (v : Nat) : (s.setDraws v).len = s.len := rfl
@[simp] theorem State.setDraws_cnt (s : State) (v : Nat) : (s.setDraws v).cnt = s.cnt := rfl
@[simp] theorem State.setDraws_pb (s : State) (v : Nat) : (s.setDraws v).pb = s.pb := rfl
@[simp] theorem State.setDraws_uf (s : State) (v : Nat) : (s.setDraws v).uf = s.uf := rfl
@[simp] theorem State.setDraws_pbSize (s : State) (v : Nat) : (s.setDraws v).pbSize = s.pbSize := rfl
@[simp] theorem State.setDraws_ufSize (s : State) (v : Nat) : (s.setDraws v).ufSize = s.ufSize := rfl
@[simp] theorem State.setDraws_running (s : State) (v : Nat) : (s.setDraws v).running = s.running := rfl
@[simp] theorem State.setDraws_inputs (s : State) (v : Nat) : (s.setDraws v).inputs = s.inputs := rfl
@[simp] theorem State.setDraws_rdata (s : State) (v : Nat) : (s.setDraws v).rdata = s.rdata := rfl
@[simp] theorem State.setDraws_draws (s : State) (v : Nat) : (s.setDraws v).draws = v := rfl

@[simp] theorem State.writePb_status (s : State) (i : Nat) (v : Byte) : (s.writePb i v).status = s.status := rfl
@[simp] theorem State.writePb_a (s : State) (i : Nat) (v : Byte) : (s.writePb i v).a = s.a := rfl
@[simp] theorem State.writePb_b (s : State) (i : Nat) (v : Byte) : (s.writePb i v).b = s.b := rfl
@[simp] theorem State.writePb_y0 (s : State) (i : Nat) (v : Byte) : (s.writePb i v).y0 = s.y0 := rfl
@[simp] theorem State.writePb_y1 (s : State) (i : Nat) (v : Byte) : (s.writePb i v).y1 = s.y1 := rfl
@[simp] theorem State.writePb_ch (s : State) (i : Nat) (v : Byte) : (s.writePb i v).ch = s.ch := rfl
@[simp] theorem State.writePb_len (s : State) (i : Nat) (v : Byte) : (s.writePb i v).len = s.len := rfl
@[simp] theorem State.writePb_cnt (s : State) (i : Nat) (v : Byte) : (s.writePb i v).cnt = s.cnt := rfl
@[simp] theorem State.writePb_pb (s : State) (i : Nat) (v : Byte) : (s.writePb i v).pb = s.pb.write i v := rfl
@[simp] theorem State.writePb_uf (s : State) (i : Nat) (v : Byte) : (s.writePb i v).uf = s.uf := rfl
@[simp] theorem State.writePb_pbSize (s : State) (i : Nat) (v : Byte) : (s.writePb i v).pbSize = s.pbSize := rfl
@[simp] theorem State.writePb_ufSize (s : State) (i : Nat) (v : Byte) : (s.writePb i v).ufSize = s.ufSize := rfl
@[simp] theorem State.writePb_running (s : State) (i : Nat) (v : Byte) : (s.writePb i v).running = s.running := rfl
@[simp] theorem State.writePb_inputs (s : State) (i : Nat) (v : Byte) : (s.writePb i v).inputs = s.inputs := rfl
@[simp] theorem State.writePb_rdata (s : State) (i : Nat) (v : Byte) : (s.writePb i v).rdata = s.rdata := rfl
@[simp] theorem State.writePb_draws (s : State) (i : Nat) (v : Byte) : (s.writePb i v).draws = s.draws := rfl

@[simp] theorem State.writeUf_status (s : State) (j : Nat) (v : Word) : (s.writeUf j v).status = s.status := rfl
@[simp] theorem State.writeUf_a (s : State) (j : Nat) (v : Word) : (s.writeUf j v).a = s.a := rfl
@[simp] theorem State.writeUf_b (s : State) (j : Nat) (v : Word) : (s.writeUf j v).b = s.b := rfl
@[simp] theorem State.writeUf_y0 (s : State) (j : Nat) (v : Word) : (s.writeUf j v).y0 = s.y0 := rfl
@[simp] theorem State.writeUf_y1 (s : State) (j : Nat) (v : Word) : (s.writeUf j v).y1 = s.y1 := rfl
@[simp] theorem State.writeUf_ch (s : State) (j : Nat) (v : Word) : (s.writeUf j v).ch = s.ch := rfl
@[simp] theorem State.writeUf_len (s : State) (j : Nat) (v : Word) : (s.writeUf j v).len = s.len := rfl
@[simp] theorem State.writeUf_cnt (s : State) (j : Nat) (v : Word) : (s.writeUf j v).cnt = s.cnt := rfl
@[simp] theorem State.writeUf_pb (s : State) (j : Nat) (v : Word) : (s.writeUf j v).pb = s.pb := rfl
@[simp] theorem State.writeUf_uf (s : State) (j : Nat) (v : Word) : (s.writeUf j v).uf = s.uf.write j v := rfl
@[simp] theorem State.writeUf_pbSize (s : State) (j : Nat) (v : Word) : (s.writeUf j v).pbSize = s.pbSize := rfl
@[simp] theorem State.writeUf_ufSize (s : State) (j : Nat) (v : Word) : (s.writeUf j v).ufSize = s.ufSize := rfl
@[simp] theorem State.writeUf_running (s : State) (j : Nat) (v : Word) : (s.writeUf j v).running = s.running := rfl
@[simp] theorem State.writeUf_inputs (s : State) (j : Nat) (v : Word) : (s.writeUf j v).inputs = s.inputs := rfl
@[simp] theorem State.writeUf_rdata (s : State) (j : Nat) (v : Word) : (s.writeUf j v).rdata = s.rdata := rfl
@[simp] theorem State.writeUf_draws (s : State) (j : Nat) (v : Word) : (s.writeUf j v).draws = s.draws := rfl

@[simp] theorem begin_status (w : Word) (s : State) : (begin w s).status = statusBusy := rfl
@[simp] theorem begin_a (w : Word) (s : State) : (begin w s).a = s.a := rfl
@[simp] theorem begin_b (w : Word) (s : State) : (begin w s).b = s.b := rfl
@[simp] theorem begin_y0 (w : Word) (s : State) : (begin w s).y0 = s.y0 := rfl
@[simp] theorem begin_y1 (w : Word) (s : State) : (begin w s).y1 = s.y1 := rfl
@[simp] theorem begin_ch (w : Word) (s : State) : (begin w s).ch = s.ch := rfl
@[simp] theorem begin_len (w : Word) (s : State) : (begin w s).len = s.len := rfl
@[simp] theorem begin_cnt (w : Word) (s : State) : (begin w s).cnt = s.cnt := rfl
@[simp] theorem begin_pb (w : Word) (s : State) : (begin w s).pb = s.pb := rfl
@[simp] theorem begin_uf (w : Word) (s : State) : (begin w s).uf = s.uf := rfl
@[simp] theorem begin_pbSize (w : Word) (s : State) : (begin w s).pbSize = s.pbSize := rfl
@[simp] theorem begin_ufSize (w : Word) (s : State) : (begin w s).ufSize = s.ufSize := rfl
@[simp] theorem begin_running (w : Word) (s : State) : (begin w s).running = some (sample w s) := rfl
@[simp] theorem begin_inputs (w : Word) (s : State) : (begin w s).inputs = s.inputs := rfl
@[simp] theorem begin_rdata (w : Word) (s : State) : (begin w s).rdata = s.rdata := rfl
@[simp] theorem begin_draws (w : Word) (s : State) : (begin w s).draws = s.draws := rfl

@[simp] theorem finish_status (s : State) : (finish s).status = statusDone := rfl
@[simp] theorem finish_a (s : State) : (finish s).a = s.a := rfl
@[simp] theorem finish_b (s : State) : (finish s).b = s.b := rfl
@[simp] theorem finish_y0 (s : State) : (finish s).y0 = s.y0 := rfl
@[simp] theorem finish_y1 (s : State) : (finish s).y1 = s.y1 := rfl
@[simp] theorem finish_ch (s : State) : (finish s).ch = s.ch := rfl
@[simp] theorem finish_len (s : State) : (finish s).len = s.len := rfl
@[simp] theorem finish_cnt (s : State) : (finish s).cnt = s.cnt := rfl
@[simp] theorem finish_pb (s : State) : (finish s).pb = s.pb := rfl
@[simp] theorem finish_uf (s : State) : (finish s).uf = s.uf := rfl
@[simp] theorem finish_pbSize (s : State) : (finish s).pbSize = s.pbSize := rfl
@[simp] theorem finish_ufSize (s : State) : (finish s).ufSize = s.ufSize := rfl
@[simp] theorem finish_running (s : State) : (finish s).running = none := rfl
@[simp] theorem finish_inputs (s : State) : (finish s).inputs = s.inputs := rfl
@[simp] theorem finish_rdata (s : State) : (finish s).rdata = s.rdata := rfl
@[simp] theorem finish_draws (s : State) : (finish s).draws = s.draws := rfl

end Sys2Proof.Machine
end

