-- ==== Sys2Proof/Laws/Memory.lean ====
section
/-! SUPPORT. The laws of element memory: reading after writing, the canonical form and its
extensionality. -/

namespace Sys2Proof.Machine

variable {width : Nat}

/-- An element reads as what was last written to it (R56). -/
@[simp] theorem Memory.read_write_same (m : Memory width) (i : Nat) (v : BitVec width) :
    (m.write i v).read i = some v := by
  induction m with
  | nil => simp [Memory.write, Memory.read]
  | cons c rest ih =>
    obtain ⟨k, u⟩ := c
    by_cases hlt : i < k
    · simp [Memory.write, Memory.read, hlt]
    · by_cases heq : i = k
      · simp [Memory.write, Memory.read, heq]
      · simp [Memory.write, Memory.read, hlt, heq, Ne.symm heq, ih]

/-- A write leaves every other element alone (R62). -/
theorem Memory.read_write_other (m : Memory width) {i j : Nat} (v : BitVec width) (h : j ≠ i) :
    (m.write i v).read j = m.read j := by
  induction m with
  | nil => simp [Memory.write, Memory.read, h.symm]
  | cons c rest ih =>
    obtain ⟨k, u⟩ := c
    by_cases hlt : i < k
    · simp [Memory.write, Memory.read, hlt, h.symm]
    · by_cases heq : i = k
      · subst heq
        simp [Memory.write, Memory.read, h.symm]
      · simp only [Memory.write, hlt, heq, if_false, Memory.read, ih]

/-- Which indices a write lists. -/
theorem Memory.mem_keys_write (m : Memory width) (i k : Nat) (v : BitVec width) :
    k ∈ (m.write i v).map Prod.fst ↔ k = i ∨ k ∈ m.map Prod.fst := by
  induction m with
  | nil => simp [Memory.write]
  | cons c rest ih =>
    obtain ⟨k', u⟩ := c
    by_cases hlt : i < k'
    · simp [Memory.write, hlt]
    · by_cases heq : i = k'
      · subst heq; simp [Memory.write]
      · simp only [Memory.write, hlt, heq, if_false, List.map_cons, List.mem_cons, ih]
        tauto

/-- A write keeps the canonical form. -/
theorem Memory.write_wf {m : Memory width} (h : m.wf) (i : Nat) (v : BitVec width) : (m.write i v).wf := by
  induction m with
  | nil => simp [Memory.write, Memory.wf]
  | cons c rest ih =>
    obtain ⟨k, u⟩ := c
    have hcons := List.pairwise_cons.mp h
    by_cases hlt : i < k
    · simp only [Memory.write, hlt, if_true, Memory.wf, List.map_cons]
      refine List.pairwise_cons.mpr ⟨?_, h⟩
      intro x hx
      rcases List.mem_cons.mp hx with rfl | hx
      · exact hlt
      · exact hlt.trans (hcons.1 x hx)
    · by_cases heq : i = k
      · subst heq
        simpa [Memory.write, Memory.wf] using h
      · simp only [Memory.write, hlt, heq, if_false, Memory.wf, List.map_cons]
        refine List.pairwise_cons.mpr ⟨?_, ih hcons.2⟩
        intro x hx
        rcases (Memory.mem_keys_write rest i x v).mp hx with rfl | hx
        · omega
        · exact hcons.1 x hx

/-- Filling a range keeps the canonical form. -/
theorem Memory.fill_wf {m : Memory width} (h : m.wf) (f : Nat → BitVec width) (n : Nat) :
    (m.fill f n).wf := by
  induction n with
  | zero => exact h
  | succ n ih => exact Memory.write_wf ih n (f n)

/-- What filling the elements 0 to `n - 1` leaves at each index. -/
theorem Memory.read_fill (m : Memory width) (f : Nat → BitVec width) (n i : Nat) :
    (m.fill f n).read i = if i < n then some (f i) else m.read i := by
  induction n with
  | zero => simp [Memory.fill]
  | succ n ih =>
    by_cases hi : i = n
    · subst hi; simp [Memory.fill]
    · rw [Memory.fill, Memory.read_write_other _ _ hi, ih]
      have : i < n + 1 ↔ i < n := by omega
      simp only [this]

/-- The bound on the listed indices after a write. -/
theorem Memory.write_bounded {m : Memory width} {size : Nat} (h : ∀ c ∈ m, c.1 < size) {i : Nat} (hi : i < size)
    (v : BitVec width) : ∀ c ∈ m.write i v, c.1 < size := by
  intro c hc
  have hk : c.1 ∈ (m.write i v).map Prod.fst := List.mem_map_of_mem hc
  rcases (Memory.mem_keys_write m i c.1 v).mp hk with heq | hk
  · omega
  · obtain ⟨d, hd, hdc⟩ := List.mem_map.mp hk
    exact hdc ▸ h d hd

/-- The bound on the listed indices after filling a range. -/
theorem Memory.fill_bounded {m : Memory width} {size : Nat} (h : ∀ c ∈ m, c.1 < size) (f : Nat → BitVec width)
    {n : Nat} (hn : n ≤ size) : ∀ c ∈ m.fill f n, c.1 < size := by
  induction n with
  | zero => exact h
  | succ n ih => exact Memory.write_bounded (ih (by omega)) (by omega) (f n)

/-- An index below every listed index is not listed. -/
theorem Memory.read_below {m : Memory width} {i : Nat} (h : ∀ k ∈ m.map Prod.fst, i < k) : m.read i = none := by
  induction m with
  | nil => rfl
  | cons c rest ih =>
    obtain ⟨k, u⟩ := c
    have hk : i < k := h k (by simp)
    have hne : k ≠ i := by omega
    simp only [Memory.read, hne, if_false]
    exact ih fun x hx => h x (by simp only [List.map_cons, List.mem_cons]; exact Or.inr hx)

/-- Two spaces in canonical form that read the same everywhere are the same data. -/
theorem Memory.ext_of_wf {m m' : Memory width} (h : m.wf) (h' : m'.wf) (heq : ∀ i, m.read i = m'.read i) :
    m = m' := by
  induction m generalizing m' with
  | nil =>
    cases m' with
    | nil => rfl
    | cons c rest =>
      have := heq c.1
      simp [Memory.read] at this
  | cons c rest ih =>
    obtain ⟨k, u⟩ := c
    cases m' with
    | nil =>
      have := heq k
      simp [Memory.read] at this
    | cons c' rest' =>
      obtain ⟨k', u'⟩ := c'
      have hc := List.pairwise_cons.mp h
      have hc' := List.pairwise_cons.mp h'
      have hkk : k = k' := by
        rcases Nat.lt_trichotomy k k' with hlt | heq' | hgt
        · have hnone : Memory.read ((k', u') :: rest') k = none := by
            refine Memory.read_below fun x hx => ?_
            rcases List.mem_cons.mp hx with rfl | hx
            · exact hlt
            · exact hlt.trans (hc'.1 x hx)
          have := heq k
          rw [hnone] at this
          simp [Memory.read] at this
        · exact heq'
        · have hnone : Memory.read ((k, u) :: rest) k' = none := by
            refine Memory.read_below fun x hx => ?_
            rcases List.mem_cons.mp hx with rfl | hx
            · exact hgt
            · exact hgt.trans (hc.1 x hx)
          have := heq k'
          rw [hnone] at this
          simp [Memory.read] at this
      subst hkk
      have huu : u = u' := by
        have := heq k
        simpa [Memory.read] using this
      subst huu
      congr 1
      refine ih hc.2 hc'.2 fun i => ?_
      by_cases hi : k = i
      · subst hi
        rw [Memory.read_below hc.1, Memory.read_below hc'.1]
      · have := heq i
        simpa [Memory.read, hi] using this

/-- Writes to different elements commute. -/
theorem Memory.write_comm {m : Memory width} (h : m.wf) {i j : Nat} (hij : i ≠ j) (v w : BitVec width) :
    (m.write i v).write j w = (m.write j w).write i v := by
  refine Memory.ext_of_wf (Memory.write_wf (Memory.write_wf h i v) j w)
    (Memory.write_wf (Memory.write_wf h j w) i v) fun k => ?_
  by_cases hki : k = i
  · subst hki
    rw [Memory.read_write_other _ _ hij, Memory.read_write_same, Memory.read_write_same]
  · by_cases hkj : k = j
    · subst hkj
      rw [Memory.read_write_same, Memory.read_write_other _ _ hki, Memory.read_write_same]
    · simp only [Memory.read_write_other _ _ hki, Memory.read_write_other _ _ hkj]

/-- Writing to an element what it already holds changes nothing. -/
theorem Memory.write_same {m : Memory width} (h : m.wf) {i : Nat} {v : BitVec width} (hv : m.read i = some v) :
    m.write i v = m := by
  refine Memory.ext_of_wf (Memory.write_wf h i v) h fun k => ?_
  by_cases hk : k = i
  · subst hk; rw [Memory.read_write_same, hv]
  · exact Memory.read_write_other _ _ hk

/-! ### The same through the machine's own reads -/

@[simp] theorem readPb_writePb_same (s : State) (i : Nat) (v : Byte) : (s.writePb i v).readPb i = v := by
  simp [State.readPb]

theorem readPb_writePb_other (s : State) {i j : Nat} (v : Byte) (h : j ≠ i) :
    (s.writePb i v).readPb j = s.readPb j := by
  simp [State.readPb, Memory.read_write_other _ _ h]

@[simp] theorem readUf_writeUf_same (s : State) (j : Nat) (v : Word) : (s.writeUf j v).readUf j = v := by
  simp [State.readUf]

theorem readUf_writeUf_other (s : State) {i j : Nat} (v : Word) (h : j ≠ i) :
    (s.writeUf i v).readUf j = s.readUf j := by
  simp [State.readUf, Memory.read_write_other _ _ h]

@[simp] theorem readPb_writeUf (s : State) (j i : Nat) (v : Word) : (s.writeUf j v).readPb i = s.readPb i := rfl

@[simp] theorem readUf_writePb (s : State) (i j : Nat) (v : Byte) : (s.writePb i v).readUf j = s.readUf j := rfl

/-- Both spaces are in canonical form after reset: nothing is listed. -/
theorem reset_memory_wf : State.reset.pb.wf ∧ State.reset.uf.wf := by decide

end Sys2Proof.Machine
end

