-- ==== Sys2Proof/Laws/Numerics.lean ====
section
/-! SUPPORT. The shape of the floating-point primitives: `value` through whole units of 2^-149, rounding
to a nearest whole number, and what `roundMag` gives (spec/45_numerics.md R180, R182). -/

namespace Sys2Proof.Machine

/-! ### Classes of patterns -/

theorem ex_lt (b : Word) : (ex b).toNat < 256 := (ex b).isLt

theorem frac_lt (b : Word) : (fracField b).toNat < 2 ^ 23 := (fracField b).isLt

theorem byte_eq_iff (e : Byte) (n : Nat) (hn : n < 256) : e = BitVec.ofNat 8 n ↔ e.toNat = n := by
  constructor
  · rintro rfl
    simp [Nat.mod_eq_of_lt hn]
  · intro h
    apply BitVec.eq_of_toNat_eq
    simp [h, Nat.mod_eq_of_lt hn]

theorem isNan_iff (b : Word) : isNan b = true ↔ (ex b).toNat = 255 ∧ (fracField b).toNat ≠ 0 := by
  have h1 := byte_eq_iff (ex b) 255 (by omega)
  have h2 : fracField b = 0 ↔ (fracField b).toNat = 0 := by
    rw [← BitVec.toNat_inj]; rfl
  simp only [isNan, Bool.and_eq_true, beq_iff_eq, bne_iff_ne, ne_eq, h2]
  exact and_congr_left fun _ => h1

theorem isInf_iff (b : Word) : isInf b = true ↔ (ex b).toNat = 255 ∧ (fracField b).toNat = 0 := by
  have h1 := byte_eq_iff (ex b) 255 (by omega)
  have h2 : fracField b = 0 ↔ (fracField b).toNat = 0 := by
    rw [← BitVec.toNat_inj]; rfl
  simp only [isInf, Bool.and_eq_true, beq_iff_eq, h2]
  exact and_congr_left fun _ => h1

theorem isZero_iff (b : Word) : isZero b = true ↔ (ex b).toNat = 0 ∧ (fracField b).toNat = 0 := by
  have h1 := byte_eq_iff (ex b) 0 (by omega)
  have h2 : fracField b = 0 ↔ (fracField b).toNat = 0 := by
    rw [← BitVec.toNat_inj]; rfl
  simp only [isZero, Bool.and_eq_true, beq_iff_eq, h2]
  exact and_congr_left fun _ => h1

theorem isFinite_iff (b : Word) : isFinite b = true ↔ (ex b).toNat ≤ 254 := by
  have h1 := byte_eq_iff (ex b) 255 (by omega)
  have h2 := ex_lt b
  simp only [isFinite, bne_iff_ne, ne_eq]
  rw [show (ex b = 255) = (ex b = BitVec.ofNat 8 255) from rfl, h1]
  omega

/-- Every pattern is a finite number, an infinity or a NaN, and only one of them (R180). -/
theorem not_finite_iff (b : Word) : isFinite b = false ↔ isInf b = true ∨ isNan b = true := by
  have h := isFinite_iff b
  have h2 := ex_lt b
  rw [isInf_iff, isNan_iff, ← Bool.not_eq_true, h]
  omega

theorem isNan_of_finite {b : Word} (h : isFinite b = true) : isNan b = false := by
  rw [isFinite_iff] at h
  rw [← Bool.not_eq_true, isNan_iff]
  omega

theorem isInf_of_finite {b : Word} (h : isFinite b = true) : isInf b = false := by
  rw [isFinite_iff] at h
  rw [← Bool.not_eq_true, isInf_iff]
  omega

/-! ### `value` and `mag` -/

theorem mag_eq (b : Word) :
    mag b = if (ex b).toNat = 0 then (fracField b).toNat
      else (2 ^ 23 + (fracField b).toNat) * 2 ^ ((ex b).toNat - 1) := by
  have h := byte_eq_iff (ex b) 0 (by omega)
  simp only [mag, show (ex b = 0) ↔ (ex b).toNat = 0 from h]

/-- `value` in whole units of the least subnormal. -/
theorem value_eq_mag (b : Word) : value b = (-1) ^ (signBit b).toNat * (mag b : ℚ) / 2 ^ 149 := by
  have h := byte_eq_iff (ex b) 0 (by omega)
  rw [mag_eq, value]
  simp only [show (ex b = 0) ↔ (ex b).toNat = 0 from h]
  split
  · norm_num
    ring
  · rename_i hne
    obtain ⟨k, hk⟩ : ∃ k, (ex b).toNat = k + 1 := ⟨(ex b).toNat - 1, by omega⟩
    have hpow : (2 : ℚ) ^ (((k + 1 : ℕ) : ℤ) - 127) = 2 ^ k * 2 ^ (-126 : ℤ) := by
      rw [show (((k + 1 : ℕ) : ℤ) - 127) = (k : ℤ) + (-126 : ℤ) by push_cast; ring,
        zpow_add₀ (by norm_num), zpow_natCast]
    rw [hk, hpow]
    push_cast [Nat.add_sub_cancel]
    norm_num
    ring

theorem mag_eq_zero_iff (b : Word) : mag b = 0 ↔ isZero b = true := by
  rw [isZero_iff, mag_eq]
  split
  · tauto
  · rename_i h
    constructor
    · intro h0
      have : 0 < (2 ^ 23 + (fracField b).toNat) * 2 ^ ((ex b).toNat - 1) := by positivity
      omega
    · intro h0; exact absurd h0.1 h

/-- The magnitude a pattern's bits 30 to 0 stand for, in units of 2^-149. -/
def magOfLow (low : Nat) : Nat :=
  if low / 2 ^ 23 = 0 then low else (2 ^ 23 + low % 2 ^ 23) * 2 ^ (low / 2 ^ 23 - 1)

theorem low_eq (b : Word) : b.toNat % 2 ^ 31 = (ex b).toNat * 2 ^ 23 + (fracField b).toNat := by
  have h := pattern_toNat b
  have h1 := ex_lt b
  have h2 := frac_lt b
  cases hs : signBit b <;> (simp [hs] at h; omega)

theorem mag_eq_magOfLow (b : Word) : mag b = magOfLow (b.toNat % 2 ^ 31) := by
  have h2 := frac_lt b
  have hq : b.toNat % 2 ^ 31 / 2 ^ 23 = (ex b).toNat := by rw [low_eq]; omega
  have hr : b.toNat % 2 ^ 31 % 2 ^ 23 = (fracField b).toNat := by rw [low_eq]; omega
  rw [mag_eq, magOfLow, hq, hr]
  split
  · rename_i h; rw [low_eq, h]; omega
  · rfl

/-! ### Patterns built from a sign and bits 30 to 0 -/

theorem pack_toNat (sign : Bool) {low : Nat} (h : low < 2 ^ 31) :
    (pack sign low).toNat = sign.toNat * 2 ^ 31 + low := by
  cases sign <;> simp [pack] <;> omega

theorem signBit_pack (sign : Bool) {low : Nat} (h : low < 2 ^ 31) : signBit (pack sign low) = sign := by
  rw [signBit_eq, pack_toNat sign h]
  cases sign <;> simp
  omega

theorem low_pack (sign : Bool) {low : Nat} (h : low < 2 ^ 31) : (pack sign low).toNat % 2 ^ 31 = low := by
  rw [pack_toNat sign h]
  omega

theorem mag_pack (sign : Bool) {low : Nat} (h : low < 2 ^ 31) : mag (pack sign low) = magOfLow low := by
  rw [mag_eq_magOfLow, low_pack sign h]

theorem ex_pack (sign : Bool) {low : Nat} (h : low < 2 ^ 31) : (ex (pack sign low)).toNat = low / 2 ^ 23 := by
  rw [ex_toNat, pack_toNat sign h]
  cases sign <;> simp <;> omega

theorem frac_pack (sign : Bool) {low : Nat} (h : low < 2 ^ 31) :
    (fracField (pack sign low)).toNat = low % 2 ^ 23 := by
  rw [fracField_toNat, pack_toNat sign h]
  cases sign <;> simp
  omega

/-! ### Rounding to a whole number -/

theorem roundNearestEven_cases (n d : Nat) :
    (2 * (n % d) < d ∧ roundNearestEven n d = n / d) ∨
    (d < 2 * (n % d) ∧ roundNearestEven n d = n / d + 1) ∨
    (2 * (n % d) = d ∧ n / d % 2 = 0 ∧ roundNearestEven n d = n / d) ∨
    (2 * (n % d) = d ∧ n / d % 2 = 1 ∧ roundNearestEven n d = n / d + 1) := by
  unfold roundNearestEven
  simp only
  split
  · exact .inl ⟨‹_›, rfl⟩
  · split
    · exact .inr (.inl ⟨‹_›, rfl⟩)
    · split
      · exact .inr (.inr (.inl ⟨by omega, ‹_›, rfl⟩))
      · exact .inr (.inr (.inr ⟨by omega, by omega, rfl⟩))

/-- A whole quotient is not rounded. -/
theorem roundNearestEven_exact {d : Nat} (hd : 0 < d) (k : Nat) : roundNearestEven (k * d) d = k := by
  have h := roundNearestEven_cases (k * d) d
  rw [Nat.mul_mod_left, Nat.mul_div_cancel _ hd] at h
  omega

/-- No whole number is nearer, and on a tie the result is even. -/
theorem roundNearestEven_nearest {d : Nat} (hd : 0 < d) (n k : Nat) :
    |((roundNearestEven n d * d : Nat) : Int) - n| ≤ |((k * d : Nat) : Int) - n| ∧
      (k ≠ roundNearestEven n d →
        |((k * d : Nat) : Int) - n| = |((roundNearestEven n d * d : Nat) : Int) - n| →
        roundNearestEven n d % 2 = 0) := by
  have hdiv := Nat.div_add_mod n d
  have hmod := Nat.mod_lt n hd
  have hcases := roundNearestEven_cases n d
  generalize roundNearestEven n d = x at *
  generalize n / d = q at *
  generalize n % d = t at *
  have hcomm : d * q = q * d := Nat.mul_comm d q
  have hsucc : (q + 1) * d = q * d + d := by ring
  have hfar : q + 2 ≤ k → q * d + 2 * d ≤ k * d := fun h =>
    calc q * d + 2 * d = (q + 2) * d := by ring
      _ ≤ k * d := Nat.mul_le_mul_right d h
  have hnear : k + 1 ≤ q → k * d + d ≤ q * d := fun h =>
    calc k * d + d = (k + 1) * d := by ring
      _ ≤ q * d := Nat.mul_le_mul_right d h
  have hk : (k + 1 ≤ q ∧ k * d + d ≤ q * d) ∨ (k = q ∧ k * d = q * d) ∨
      (k = q + 1 ∧ k * d = q * d + d) ∨ (q + 2 ≤ k ∧ q * d + 2 * d ≤ k * d) := by
    rcases Nat.lt_or_ge k q with h | h
    · exact .inl ⟨h, hnear h⟩
    · rcases Nat.lt_or_ge k (q + 2) with h' | h'
      · rcases (show k = q ∨ k = q + 1 by omega) with rfl | rfl
        · exact .inr (.inl ⟨rfl, rfl⟩)
        · exact .inr (.inr (.inl ⟨rfl, hsucc⟩))
      · exact .inr (.inr (.inr ⟨h', hfar h'⟩))
  have hx : (x = q ∧ x * d = q * d ∧ (2 * t < d ∨ 2 * t = d ∧ q % 2 = 0)) ∨
      (x = q + 1 ∧ x * d = q * d + d ∧ (d < 2 * t ∨ 2 * t = d ∧ q % 2 = 1)) := by
    rcases hcases with ⟨h1, rfl⟩ | ⟨h1, rfl⟩ | ⟨h1, h2, rfl⟩ | ⟨h1, h2, rfl⟩
    · exact .inl ⟨rfl, rfl, .inl h1⟩
    · exact .inr ⟨rfl, hsucc, .inl h1⟩
    · exact .inl ⟨rfl, rfl, .inr ⟨h1, h2⟩⟩
    · exact .inr ⟨rfl, hsucc, .inr ⟨h1, h2⟩⟩
  rw [hcomm] at hdiv
  generalize x * d = xd at *
  generalize k * d = kd at *
  generalize q * d = qd at *
  rcases abs_cases ((xd : Int) - n) with ⟨e1, _⟩ | ⟨e1, _⟩ <;>
  rcases abs_cases ((kd : Int) - n) with ⟨e2, _⟩ | ⟨e2, _⟩ <;>
  rw [e1, e2] <;> omega

/-! ### Rounding to a pattern (R182) -/

/-- What `roundMag` does: the whole quotient is brought to at most 24 bits by a shift, the shifted
quotient is rounded to a nearest whole number `r`, and the pattern counts spacings of `2^shift`. -/
theorem roundMag_cases (n : Nat) {d : Nat} (hd : 0 < d) :
    ∃ shift r : Nat, r = roundNearestEven n (d * 2 ^ shift) ∧ r ≤ 2 ^ 24 ∧
      n < 2 ^ 24 * (d * 2 ^ shift) ∧
      (shift = 0 ∨ 2 ^ 23 ≤ r ∧ 2 ^ 23 * (d * 2 ^ shift) ≤ n) ∧
      roundMag n d = min (shift * 2 ^ 23 + r) 0x7F800000 := by
  set shift := Nat.log2 (n / d) - 23 with hshift
  have hD : 0 < d * 2 ^ shift := by positivity
  have hq : n / (d * 2 ^ shift) < 2 ^ 24 ∧ (shift = 0 ∨ 2 ^ 23 ≤ n / (d * 2 ^ shift)) := by
    rw [← Nat.div_div_eq_div_mul]
    by_cases h0 : n / d = 0
    · have : shift = 0 := by rw [hshift, h0]; rfl
      simp [h0, this]
    · have hlo := Nat.log2_self_le h0
      have hhi : n / d < 2 ^ (Nat.log2 (n / d) + 1) := Nat.lt_log2_self
      constructor
      · rw [Nat.div_lt_iff_lt_mul (by positivity), ← pow_add]
        exact hhi.trans_le (Nat.pow_le_pow_right (by norm_num) (by omega))
      · by_cases hs : shift = 0
        · exact .inl hs
        · right
          rw [Nat.le_div_iff_mul_le (by positivity), ← pow_add]
          exact (Nat.pow_le_pow_right (by norm_num) (by omega)).trans hlo
  refine ⟨shift, _, rfl, ?_, (Nat.div_lt_iff_lt_mul hD).mp hq.1, ?_, rfl⟩
  · have := roundNearestEven_cases n (d * 2 ^ shift)
    omega
  · rcases hq.2 with h | h
    · exact .inl h
    · right
      refine ⟨?_, ?_⟩
      · have := roundNearestEven_cases n (d * 2 ^ shift)
        omega
      · exact (Nat.le_div_iff_mul_le hD).mp h

/-- What the pattern that counts `shift * 2^23 + r` spacings stands for. -/
theorem magOfLow_count {shift r : Nat} (hr : r ≤ 2 ^ 24) (h : shift = 0 ∨ 2 ^ 23 ≤ r) :
    magOfLow (shift * 2 ^ 23 + r) = r * 2 ^ shift := by
  rcases Nat.lt_or_ge r (2 ^ 24) with hlt | hge
  · rcases Nat.lt_or_ge r (2 ^ 23) with hsub | hnorm
    · have hs : shift = 0 := by omega
      subst hs
      have : (0 * 2 ^ 23 + r) / 2 ^ 23 = 0 := by omega
      simp only [magOfLow, this, if_true]
      omega
    · have h1 : (shift * 2 ^ 23 + r) / 2 ^ 23 = shift + 1 := by omega
      have h2 : (shift * 2 ^ 23 + r) % 2 ^ 23 = r - 2 ^ 23 := by omega
      have h3 : 2 ^ 23 + (r - 2 ^ 23) = r := by omega
      simp only [magOfLow, h1, h2, h3, Nat.add_eq_zero_iff, Nat.one_ne_zero, and_false, if_false,
        Nat.add_sub_cancel]
  · have hr : r = 2 ^ 24 := by omega
    subst hr
    have h1 : (shift * 2 ^ 23 + 2 ^ 24) / 2 ^ 23 = shift + 2 := by omega
    have h2 : (shift * 2 ^ 23 + 2 ^ 24) % 2 ^ 23 = 0 := by omega
    rw [magOfLow, if_neg (by omega), h1, h2, show shift + 2 - 1 = shift + 1 by omega, pow_succ]
    ring

/-- Every pattern counts the spacings of what it stands for. -/
theorem exists_count (low : Nat) :
    ∃ shift r : Nat, low = shift * 2 ^ 23 + r ∧ r < 2 ^ 24 ∧ (shift = 0 ∨ 2 ^ 23 ≤ r) ∧
      magOfLow low = r * 2 ^ shift := by
  by_cases h : low / 2 ^ 23 = 0
  · refine ⟨0, low, by omega, by omega, .inl rfl, ?_⟩
    rw [magOfLow, if_pos h, pow_zero, Nat.mul_one]
  · refine ⟨low / 2 ^ 23 - 1, 2 ^ 23 + low % 2 ^ 23, by omega, by omega, .inr (by omega), ?_⟩
    rw [magOfLow, if_neg h]

/-- `roundMag` is at most the pattern of +infinity. -/
theorem roundMag_le (n d : Nat) : roundMag n d ≤ 0x7F800000 := Nat.min_le_right _ _

theorem roundMag_lt (n d : Nat) : roundMag n d < 2 ^ 31 := by
  have := roundMag_le n d
  omega

/-- Below the pattern of +infinity, `roundMag` gives a nearest representable magnitude, and on a tie one
whose last bit is 0 (R182). -/
theorem roundMag_nearest (n : Nat) {d : Nat} (hd : 0 < d) (hfin : roundMag n d < 0x7F800000) (low : Nat) :
    |((magOfLow (roundMag n d) * d : Nat) : Int) - n| ≤ |((magOfLow low * d : Nat) : Int) - n| ∧
      (magOfLow low ≠ magOfLow (roundMag n d) →
        |((magOfLow low * d : Nat) : Int) - n| = |((magOfLow (roundMag n d) * d : Nat) : Int) - n| →
        roundMag n d % 2 = 0) := by
  obtain ⟨shift, r, hr, hr24, hlt, hbig, hround⟩ := roundMag_cases n hd
  have hlow : roundMag n d = shift * 2 ^ 23 + r := by omega
  have hD : 0 < d * 2 ^ shift := by positivity
  rw [hlow, magOfLow_count hr24 (hbig.imp_right And.left)]
  obtain ⟨shift', r', -, hr24', hbig', hmag'⟩ := exists_count low
  rw [hmag']
  have hscale : r * 2 ^ shift * d = r * (d * 2 ^ shift) := by ring
  by_cases hs : shift ≤ shift'
  · have hscale' : r' * 2 ^ shift' * d = r' * 2 ^ (shift' - shift) * (d * 2 ^ shift) := by
      rw [← Nat.sub_add_cancel hs, pow_add, Nat.add_sub_cancel]
      ring
    obtain ⟨hle, htie⟩ := roundNearestEven_nearest hD n (r' * 2 ^ (shift' - shift))
    rw [← hr] at hle htie
    rw [hscale, hscale']
    refine ⟨hle, fun hne heq => ?_⟩
    have := htie (fun h => hne ?_) heq
    · omega
    · rw [← h, Nat.mul_assoc, ← pow_add, Nat.sub_add_cancel hs]
  · obtain ⟨hle, -⟩ := roundNearestEven_nearest hD n (2 ^ 23)
    rw [← hr] at hle
    have hn : 2 ^ 23 * (d * 2 ^ shift) ≤ n := by
      rcases hbig with h | h
      · omega
      · exact h.2
    have hsmall : r' * 2 ^ shift' * d < 2 ^ 23 * (d * 2 ^ shift) := by
      have h1 : r' * 2 ^ shift' < 2 ^ 24 * 2 ^ shift' := Nat.mul_lt_mul_of_pos_right hr24' (by positivity)
      have h2 : 2 ^ 24 * 2 ^ shift' ≤ 2 ^ 23 * 2 ^ shift := by
        rw [← pow_add, ← pow_add]
        exact Nat.pow_le_pow_right (by norm_num) (by omega)
      calc r' * 2 ^ shift' * d < 2 ^ 23 * 2 ^ shift * d := Nat.mul_lt_mul_of_pos_right (h1.trans_le h2) hd
        _ = 2 ^ 23 * (d * 2 ^ shift) := by ring
    rw [hscale]
    generalize r' * 2 ^ shift' * d = far at *
    generalize 2 ^ 23 * (d * 2 ^ shift) = near at *
    generalize r * (d * 2 ^ shift) = got at *
    rw [abs_of_nonpos (by omega : ((near : Nat) : Int) - n ≤ 0)] at hle
    rw [abs_of_neg (by omega : ((far : Nat) : Int) - n < 0)]
    constructor <;> omega

/-- `roundMag` reaches the pattern of +infinity at half a unit above the largest finite number (R182). -/
theorem roundMag_infinite_iff (n : Nat) {d : Nat} (hd : 0 < d) :
    roundMag n d = 0x7F800000 ↔ d * ((2 ^ 25 - 1) * 2 ^ 252) ≤ n := by
  obtain ⟨shift, r, hr, hr24, hlt, hbig, hround⟩ := roundMag_cases n hd
  have hD : 0 < d * 2 ^ shift := by positivity
  have hdm := Nat.div_add_mod n (d * 2 ^ shift)
  have hmod := Nat.mod_lt n hD
  have hcases := roundNearestEven_cases n (d * 2 ^ shift)
  rw [← hr] at hcases
  have hinf : roundMag n d = 0x7F800000 ↔ 254 ≤ shift ∨ shift = 253 ∧ r = 2 ^ 24 := by
    rcases hbig with h | h <;> omega
  rw [hinf]
  rcases Nat.lt_trichotomy shift 253 with hs | hs | hs
  · have h1 : d * 2 ^ shift ≤ d * 2 ^ 252 :=
      Nat.mul_le_mul_left d (Nat.pow_le_pow_right (by norm_num) (by omega))
    constructor
    · omega
    · intro h; omega
  · subst hs
    have hquot : n / (d * 2 ^ 253) * (d * 2 ^ 253) = d * 2 ^ 253 * (n / (d * 2 ^ 253)) := Nat.mul_comm _ _
    have hq24 : n / (d * 2 ^ 253) < 2 ^ 24 := (Nat.div_lt_iff_lt_mul hD).mpr hlt
    generalize n % (d * 2 ^ 253) = t at *
    generalize n / (d * 2 ^ 253) = q at *
    constructor
    · rintro (h | ⟨-, h⟩)
      · omega
      · have hq : q = 2 ^ 24 - 1 := by omega
        subst hq
        omega
    · intro h
      right
      refine ⟨rfl, ?_⟩
      by_contra hne
      have hq : q ≤ 2 ^ 24 - 2 ∨ q = 2 ^ 24 - 1 := by omega
      rcases hq with hq | rfl
      · have : d * 2 ^ 253 * q ≤ d * 2 ^ 253 * (2 ^ 24 - 2) := Nat.mul_le_mul_left _ hq
        omega
      · omega
  · have h1 : d * 2 ^ 254 ≤ d * 2 ^ shift :=
      Nat.mul_le_mul_left d (Nat.pow_le_pow_right (by norm_num) (by omega))
    constructor
    · intro _
      have hlarge : 2 ^ 23 * (d * 2 ^ shift) ≤ n := (hbig.resolve_left (by omega)).2
      calc d * ((2 ^ 25 - 1) * 2 ^ 252) ≤ d * (2 ^ 23 * 2 ^ 254) := Nat.mul_le_mul_left d (by norm_num)
        _ = 2 ^ 23 * (d * 2 ^ 254) := by ring
        _ ≤ 2 ^ 23 * (d * 2 ^ shift) := Nat.mul_le_mul_left _ h1
        _ ≤ n := hlarge
    · intro _; left; omega

/-- The order of magnitudes is the order of patterns (R181). -/
theorem magOfLow_strictMono : StrictMono magOfLow := by
  refine strictMono_nat_of_lt_succ fun low => ?_
  by_cases hcarry : low % 2 ^ 23 + 1 < 2 ^ 23
  · have h1 : (low + 1) / 2 ^ 23 = low / 2 ^ 23 := by omega
    have h2 : (low + 1) % 2 ^ 23 = low % 2 ^ 23 + 1 := by omega
    by_cases h0 : low / 2 ^ 23 = 0
    · rw [magOfLow, magOfLow, if_pos h0, if_pos (h1.trans h0)]
      omega
    · rw [magOfLow, magOfLow, if_neg h0, if_neg (by omega), h1, h2]
      exact Nat.mul_lt_mul_of_pos_right (by omega) (by positivity)
  · have h1 : (low + 1) / 2 ^ 23 = low / 2 ^ 23 + 1 := by omega
    have h2 : (low + 1) % 2 ^ 23 = 0 := by omega
    rw [magOfLow, magOfLow, if_neg (by omega : ¬ (low + 1) / 2 ^ 23 = 0), h1, h2, Nat.add_sub_cancel]
    by_cases h0 : low / 2 ^ 23 = 0
    · rw [if_pos h0, h0]
      omega
    · obtain ⟨k, hk⟩ : ∃ k, low / 2 ^ 23 = k + 1 := ⟨low / 2 ^ 23 - 1, by omega⟩
      have hpos : 0 < 2 ^ k := by positivity
      have hf : low % 2 ^ 23 = 2 ^ 23 - 1 := by omega
      rw [if_neg h0, hk, Nat.add_sub_cancel, hf, pow_succ 2 k]
      omega

/-- The magnitude of a finite pattern stays below 2^277 - 2^252 units, the threshold of R182. -/
theorem magOfLow_finite {low : Nat} (h : low < 0x7F800000) : magOfLow low < (2 ^ 25 - 1) * 2 ^ 252 := by
  have h1 : magOfLow low ≤ magOfLow 0x7F7FFFFF := magOfLow_strictMono.monotone (by omega)
  have h2 : magOfLow 0x7F7FFFFF = (2 ^ 24 - 1) * 2 ^ 253 := by
    norm_num [magOfLow]
  omega

/-- A quotient that is a representable magnitude is not rounded. -/
theorem roundMag_exact {d : Nat} (hd : 0 < d) {low : Nat} (hlow : low < 0x7F800000) :
    roundMag (magOfLow low * d) d = low := by
  have hfin : roundMag (magOfLow low * d) d < 0x7F800000 := by
    refine lt_of_le_of_ne (roundMag_le _ _) fun heq => ?_
    have h1 := (roundMag_infinite_iff _ hd).mp heq
    have h2 := Nat.mul_lt_mul_of_pos_left (magOfLow_finite hlow) hd
    rw [Nat.mul_comm d (magOfLow low)] at h2
    omega
  have hnear := (roundMag_nearest (magOfLow low * d) hd hfin low).1
  rw [sub_self, abs_zero] at hnear
  have heq : magOfLow (roundMag (magOfLow low * d) d) * d = magOfLow low * d := by
    have := abs_nonpos_iff.mp hnear
    omega
  exact magOfLow_strictMono.injective (Nat.eq_of_mul_eq_mul_right hd heq)

end Sys2Proof.Machine
end

