-- ==== Sys2Proof/Laws/Ops.lean ====
section
/-! SUPPORT. What each shared operation can do, said once: the issue step, a whole operation, the
pixel count and the size premise, the host's accesses, the reset event. -/

namespace Sys2Proof.Machine

/-! ### The fields of the sampled operands -/

@[simp] theorem sample_cmd (w : Word) (s : State) : (sample w s).cmd = w := rfl
@[simp] theorem sample_a (w : Word) (s : State) : (sample w s).a = s.a := rfl
@[simp] theorem sample_b (w : Word) (s : State) : (sample w s).b = s.b := rfl
@[simp] theorem sample_ch (w : Word) (s : State) : (sample w s).ch = s.ch := rfl
@[simp] theorem sample_len (w : Word) (s : State) : (sample w s).len = s.len := rfl
@[simp] theorem sample_pix (w : Word) (s : State) : (sample w s).pix = 0 := rfl

/-! ### The decoder on the words of the encoder, and the pixel count -/

@[simp] theorem decode_zero : decode 0#32 = .ok .bfx := by decide
@[simp] theorem decode_one : decode 1#32 = .ok .bfi := by decide
@[simp] theorem decode_two : decode 2#32 = .ok .fxs := by decide
@[simp] theorem decode_three : decode 3#32 = .ok .fxe := by decide
@[simp] theorem decode_four : decode 4#32 = .ok .dec := by decide
@[simp] theorem decode_five : decode 5#32 = .ok .enc := by decide

theorem pixelCount_dec {r : Running} (h : decode r.cmd = .ok .dec) : pixelCount r = decCount r := by
  simp only [pixelCount, h]

theorem pixelCount_enc {r : Running} (h : decode r.cmd = .ok .enc) : pixelCount r = encCount r := by
  simp only [pixelCount, h]

/-- Only the two buffer operations process pixels (R34). -/
theorem pixelCount_other {r : Running} (hd : decode r.cmd ≠ .ok .dec) (he : decode r.cmd ≠ .ok .enc) :
    pixelCount r = 0 := by
  unfold pixelCount
  split <;> simp_all

/-- An operation that processes no pixel needs no buffer (R69, last sentence). -/
theorem sizesSuffice_of_no_pixel {r : Running} (h : pixelCount r = 0) (s : State) : sizesSuffice r s = true := by
  simp [sizesSuffice, elementsPb, elementsUf, h]

theorem sizesSuffice_iff (r : Running) (s : State) :
    sizesSuffice r s = true ↔ elementsPb r ≤ s.pbSize.val ∧ elementsUf r ≤ s.ufSize.val := by
  simp [sizesSuffice]

theorem validChannels_iff (r : Running) : validChannels r = true ↔ r.ch = 3 ∨ r.ch = 4 := by
  simp [validChannels]

/-- A valid channel count is 3 or 4 as a number. -/
theorem channels_of_valid {r : Running} (h : validChannels r = true) : channels r = 3 ∨ channels r = 4 := by
  rcases (validChannels_iff r).mp h with h | h
  · exact .inl (by simp [channels, h])
  · exact .inr (by simp [channels, h])

/-- A pixel count that is not zero means a valid channel count. -/
theorem valid_of_pixel {r : Running} (h : pixelCount r ≠ 0) : validChannels r = true := by
  by_contra hv
  refine h ?_
  unfold pixelCount decCount encCount
  split <;> simp [hv]

/-! ### The issue step and a whole operation (R31, R33, R65) -/

/-- The three things the issue step can do. -/
theorem issue_cases (w : Word) (s : State) :
    (s.busy = true ∧ issue w s = .refused .hostActsWhileBusy) ∨
    (s.busy = false ∧ sizesSuffice (sample w s) s = true ∧ issue w s = .next (begin w s)) ∨
    (s.busy = false ∧ sizesSuffice (sample w s) s = false ∧ issue w s = .refused .bufferTooSmall) := by
  unfold issue
  cases hb : s.busy
  · cases hs : sizesSuffice (sample w s) s
    · exact .inr (.inr ⟨rfl, rfl, by simp⟩)
    · exact .inr (.inl ⟨rfl, rfl, by simp⟩)
  · exact .inl ⟨rfl, by simp⟩

/-- What a whole operation answers, from an idle codec with large enough buffers. -/
theorem operate_of_ready {w : Word} {s : State} (work : Running → State → State) (hb : s.busy = false)
    (hs : sizesSuffice (sample w s) s = true) :
    operate w work s = .next (finish (work (sample w s) (begin w s))) := by
  simp [operate, issue, hb, hs]

/-- The three things a whole operation can do. -/
theorem operate_cases (w : Word) (work : Running → State → State) (s : State) :
    (s.busy = true ∧ operate w work s = .refused .hostActsWhileBusy) ∨
    (s.busy = false ∧ sizesSuffice (sample w s) s = true ∧
      operate w work s = .next (finish (work (sample w s) (begin w s)))) ∨
    (s.busy = false ∧ sizesSuffice (sample w s) s = false ∧ operate w work s = .refused .bufferTooSmall) := by
  rcases issue_cases w s with ⟨hb, h⟩ | ⟨hb, hs, h⟩ | ⟨hb, hs, h⟩
  · exact .inl ⟨hb, by simp [operate, h]⟩
  · exact .inr (.inl ⟨hb, hs, by simp [operate, h]⟩)
  · exact .inr (.inr ⟨hb, hs, by simp [operate, h]⟩)

/-- If a whole operation answers a next state, it is the completed one. -/
theorem operate_next {w : Word} {work : Running → State → State} {s t : State}
    (h : operate w work s = .next t) :
    s.busy = false ∧ sizesSuffice (sample w s) s = true ∧ t = finish (work (sample w s) (begin w s)) := by
  rcases operate_cases w work s with ⟨_, hc⟩ | ⟨hb, hs, hc⟩ | ⟨_, _, hc⟩
  · rw [hc] at h; cases h
  · rw [hc] at h; cases h; exact ⟨hb, hs, rfl⟩
  · rw [hc] at h; cases h

/-- The issue step leaves the size premise as it is. -/
@[simp] theorem sizesSuffice_begin (r : Running) (w : Word) (s : State) :
    sizesSuffice r (begin w s) = sizesSuffice r s := rfl

@[simp] theorem busy_finish (s : State) : (finish s).busy = false := by
  simp [State.busy, statusDone]

@[simp] theorem busy_begin (w : Word) (s : State) : (begin w s).busy = true := by
  simp [State.busy, statusBusy]

/-! ### The host's accesses -/

/-- What a host write that is admitted answers, for a register other than `CMD` (R22). -/
theorem hostWrite_next {g : Reg} (hg : g ≠ .cmd) {v : DWord} {s t : State} (h : hostWrite g v s = .next t) :
    s.busy = false ∧
      (t = s ∨ t = s.setA (v.setWidth 32) ∨ t = s.setB (v.setWidth 32) ∨ t = s.setCh v ∨ t = s.setLen v) := by
  unfold hostWrite at h
  split at h
  · cases h
  · refine ⟨by simp_all, ?_⟩
    cases g <;> simp_all

/-- What a host read that is admitted answers (R22). -/
theorem hostRead_next {g : Reg} {s t : State} (h : hostRead g s = .next t) :
    (s.busy = false ∨ g = .status) ∧ t = s.setRdata (readReg g s) := by
  unfold hostRead at h
  split at h
  · cases h
  · rename_i hc
    simp only [Bool.and_eq_true, bne_iff_ne, not_and_or, not_not, Bool.not_eq_true] at hc
    cases h
    exact ⟨hc, rfl⟩

theorem hostWritePb_next {i : Nat} {v : Byte} {s t : State} (h : hostWritePb i v s = .next t) :
    s.busy = false ∧ i < s.pbSize.val ∧ t = s.writePb i v := by
  unfold hostWritePb at h
  split at h
  · cases h
  · split at h
    · cases h; exact ⟨by simp_all, ‹_›, rfl⟩
    · cases h

theorem hostWriteUf_next {j : Nat} {v : Word} {s t : State} (h : hostWriteUf j v s = .next t) :
    s.busy = false ∧ j < s.ufSize.val ∧ t = s.writeUf j v := by
  unfold hostWriteUf at h
  split at h
  · cases h
  · split at h
    · cases h; exact ⟨by simp_all, ‹_›, rfl⟩
    · cases h

theorem hostReadPb_next {i : Nat} {s t : State} (h : hostReadPb i s = .next t) :
    s.busy = false ∧ i < s.pbSize.val ∧ t = s.setRdata ((s.readPb i).setWidth 64) := by
  unfold hostReadPb at h
  split at h
  · cases h
  · split at h
    · cases h; exact ⟨by simp_all, ‹_›, rfl⟩
    · cases h

theorem hostReadUf_next {j : Nat} {s t : State} (h : hostReadUf j s = .next t) :
    s.busy = false ∧ j < s.ufSize.val ∧ t = s.setRdata ((s.readUf j).setWidth 64) := by
  unfold hostReadUf at h
  split at h
  · cases h
  · split at h
    · cases h; exact ⟨by simp_all, ‹_›, rfl⟩
    · cases h

/-! ### The reset event (R42, U10) -/

/-- What abandoning an operation does to `UF`: free values in the destination of `DEC`, nothing else. -/
theorem abandon_uf (r : Running) (s : State) :
    (abandon r s).uf = if decode r.cmd = .ok .dec
      then Memory.fill (Config.abandonedUf s.draws) (elementsUf r) s.uf else s.uf := by
  unfold abandon
  split <;> simp_all

/-- What abandoning an operation does to `PB`: free values in the destination of `ENC`, nothing else. -/
theorem abandon_pb (r : Running) (s : State) :
    (abandon r s).pb = if decode r.cmd = .ok .enc
      then Memory.fill (Config.abandonedPb s.draws) (elementsPb r) s.pb else s.pb := by
  unfold abandon
  split <;> simp_all

end Sys2Proof.Machine
end

