-- ==== Sys2Proof/Laws/PerInstr.lean ====
section
/-! SUPPORT. A family of statements about every instruction as syntax: its command word is well formed
and stands in the low three bits (spec/30_encoding.md R80, R82). -/

namespace Sys2Proof.Laws

/-- The command word of `i` has no reserved bit set, an assigned operation code, and is its own
operation code. -/
def CommandWord.Statement (i : Instr) : Prop :=
  commandWellFormed (encode i) = true ∧ encode i = (opField (encode i)).setWidth 32

theorem CommandWord.bfx : CommandWord.Statement .bfx := ⟨by decide, by decide⟩
theorem CommandWord.bfi : CommandWord.Statement .bfi := ⟨by decide, by decide⟩
theorem CommandWord.fxs : CommandWord.Statement .fxs := ⟨by decide, by decide⟩
theorem CommandWord.fxe : CommandWord.Statement .fxe := ⟨by decide, by decide⟩
theorem CommandWord.dec : CommandWord.Statement .dec := ⟨by decide, by decide⟩
theorem CommandWord.enc : CommandWord.Statement .enc := ⟨by decide, by decide⟩

end Sys2Proof.Laws
end

