-- ==== Sys2Proof/Laws/Pixels.lean ====
section
/-! SUPPORT. The pixel loops of `DEC` and `ENC`: what storing one pixel and running `n` iterations leave at
every index, and that they change nothing but the destination space (R53, R54, R56, R64). -/

namespace Sys2Proof.Machine

/-! ### Storing one unpacked pixel (R53) -/

theorem storeUnpacked_eq (ch base : Nat) (q : UnpackedPixel) (s : State) :
    storeUnpacked ch base q s = s.setUf (storeUnpacked ch base q s).uf := by
  unfold storeUnpacked
  simp only
  split <;> rfl

/-- The destination of a store depends on the destination alone. -/
theorem storeUnpacked_uf_congr (ch base : Nat) (q : UnpackedPixel) {s t : State} (h : s.uf = t.uf) :
    (storeUnpacked ch base q s).uf = (storeUnpacked ch base q t).uf := by
  unfold storeUnpacked
  simp only
  split <;> simp [h]

theorem read_storeUnpacked {ch : Nat} (hch : ch = 3 ∨ ch = 4) (base : Nat) (q : UnpackedPixel) (s : State) (j : Nat) :
    (storeUnpacked ch base q s).uf.read j =
      if base ≤ j ∧ j < base + ch then some (unpackedComponent q (j - base)) else s.uf.read j := by
  have hout : ∀ {m : Memory 32} {i : Nat} {v : Word}, j ≠ i → (m.write i v).read j = m.read j :=
    fun h => Memory.read_write_other _ _ h
  by_cases h0 : j = base
  · subst h0
    rcases hch with rfl | rfl <;> simp [storeUnpacked, Memory.read_write_other, unpackedComponent]
  · by_cases h1 : j = base + 1
    · subst h1
      rcases hch with rfl | rfl <;> simp [storeUnpacked, Memory.read_write_other, unpackedComponent]
    · by_cases h2 : j = base + 2
      · subst h2
        rcases hch with rfl | rfl <;> simp [storeUnpacked, Memory.read_write_other, unpackedComponent]
      · rcases hch with rfl | rfl
        · rw [if_neg (by omega)]
          simp [storeUnpacked, hout h0, hout h1, hout h2]
        · by_cases h3 : j = base + 3
          · subst h3
            simp [storeUnpacked, unpackedComponent]
          · rw [if_neg (by omega)]
            simp [storeUnpacked, hout h0, hout h1, hout h2, hout h3]

theorem storeUnpacked_wf (ch base : Nat) (q : UnpackedPixel) {s : State} (h : s.uf.wf) :
    (storeUnpacked ch base q s).uf.wf := by
  unfold storeUnpacked
  simp only
  split <;> simp only [State.writeUf_uf] <;> (repeat' apply Memory.write_wf) <;> exact h

theorem storeUnpacked_bounded {ch base size : Nat} (hch : ch = 3 ∨ ch = 4) (q : UnpackedPixel) {s : State}
    (h : ∀ c ∈ s.uf, c.1 < size) (hb : base + ch ≤ size) :
    ∀ c ∈ (storeUnpacked ch base q s).uf, c.1 < size := by
  have h3 : ∀ c ∈ (((s.uf.write base q.r).write (base + 1) q.g).write (base + 2) q.b), c.1 < size :=
    Memory.write_bounded (Memory.write_bounded (Memory.write_bounded h (by omega) _) (by omega) _) (by omega) _
  rcases hch with rfl | rfl
  · simpa [storeUnpacked] using h3
  · simpa [storeUnpacked] using Memory.write_bounded h3 (by omega) q.a

/-! ### The loop of `DEC` -/

theorem decPixel_eq (ch p : Nat) (s : State) : decPixel ch p s = s.setUf (decPixel ch p s).uf :=
  storeUnpacked_eq _ _ _ s

/-- `DEC` changes `UF` and nothing else in its loop (R54, R56). -/
theorem decPixels_eq (ch n : Nat) (s : State) : decPixels ch n s = s.setUf (decPixels ch n s).uf := by
  induction n with
  | zero => rfl
  | succ n ih =>
    simp only [decPixels]
    rw [decPixel_eq, ih]
    rfl

theorem packedAt_congr {s t : State} (h : s.pb = t.pb) (p : Nat) : packedAt s p = packedAt t p := by
  simp [packedAt, State.readPb, h]

/-- What `n` iterations of `DEC` leave at every index of `UF`. -/
theorem read_decPixels {ch : Nat} (hch : ch = 3 ∨ ch = 4) (n : Nat) (s : State) (j : Nat) :
    (decPixels ch n s).uf.read j =
      if j < ch * n then some (unpackedComponent (decPx (packedAt s (j / ch))) (j % ch)) else s.uf.read j := by
  induction n with
  | zero => simp [decPixels]
  | succ n ih =>
    have hpb : (decPixels ch n s).pb = s.pb := by rw [decPixels_eq]; rfl
    rw [decPixels, decPixel, read_storeUnpacked hch, ih, packedAt_congr hpb]
    have hmul : ch * (n + 1) = ch * n + ch := Nat.mul_succ ch n
    by_cases hin : ch * n ≤ j ∧ j < ch * n + ch
    · have hdiv : j / ch = n := by
        rw [Nat.div_eq_iff (by omega)]
        have : n * ch = ch * n := Nat.mul_comm n ch
        omega
      have hmod : j % ch = j - ch * n := by
        have := Nat.div_add_mod j ch
        rw [hdiv] at this
        omega
      rw [if_pos hin, if_pos (by omega), hdiv, hmod]
    · rw [if_neg hin]
      by_cases hlt : j < ch * n
      · rw [if_pos hlt, if_pos (by omega)]
      · rw [if_neg hlt, if_neg (by omega)]

theorem decPixels_wf (ch n : Nat) {s : State} (h : s.uf.wf) : (decPixels ch n s).uf.wf := by
  induction n with
  | zero => exact h
  | succ n ih => exact storeUnpacked_wf _ _ _ ih

/-! ### Storing one packed pixel (R52) -/

theorem storePacked_eq (base : Nat) (q : PackedPixel) (s : State) :
    storePacked base q s = s.setPb (storePacked base q s).pb := rfl

theorem read_storePacked (base : Nat) (q : PackedPixel) (s : State) (i : Nat) :
    (storePacked base q s).pb.read i =
      if base ≤ i ∧ i < base + 4 then some (packedComponent q (i - base)) else s.pb.read i := by
  have hout : ∀ {m : Memory 8} {k : Nat} {v : Byte}, i ≠ k → (m.write k v).read i = m.read i :=
    fun h => Memory.read_write_other _ _ h
  by_cases h0 : i = base
  · subst h0
    simp [storePacked, Memory.read_write_other, packedComponent]
  · by_cases h1 : i = base + 1
    · subst h1
      simp [storePacked, Memory.read_write_other, packedComponent]
    · by_cases h2 : i = base + 2
      · subst h2
        simp [storePacked, Memory.read_write_other, packedComponent]
      · by_cases h3 : i = base + 3
        · subst h3
          simp [storePacked, packedComponent]
        · rw [if_neg (by omega)]
          simp [storePacked, hout h0, hout h1, hout h2, hout h3]

theorem storePacked_wf (base : Nat) (q : PackedPixel) {s : State} (h : s.pb.wf) :
    (storePacked base q s).pb.wf :=
  Memory.write_wf (Memory.write_wf (Memory.write_wf (Memory.write_wf h _ _) _ _) _ _) _ _

theorem storePacked_bounded {base size : Nat} (q : PackedPixel) {s : State} (h : ∀ c ∈ s.pb, c.1 < size)
    (hb : base + 4 ≤ size) : ∀ c ∈ (storePacked base q s).pb, c.1 < size :=
  Memory.write_bounded (Memory.write_bounded (Memory.write_bounded (Memory.write_bounded h (by omega) _)
    (by omega) _) (by omega) _) (by omega) _

/-! ### The loop of `ENC` -/

theorem encPixel_eq (ch p : Nat) (s : State) : encPixel ch p s = s.setPb (encPixel ch p s).pb := rfl

/-- `ENC` changes `PB` and nothing else in its loop (R54, R56). -/
theorem encPixels_eq (ch n : Nat) (s : State) : encPixels ch n s = s.setPb (encPixels ch n s).pb := by
  induction n with
  | zero => rfl
  | succ n ih =>
    simp only [encPixels]
    rw [encPixel_eq, ih]
    rfl

theorem encodeAt_congr {s t : State} (h : s.uf = t.uf) (base : Nat) : encodeAt s base = encodeAt t base := by
  simp [encodeAt, State.readUf, h]

/-- What `n` iterations of `ENC` leave at every index of `PB`. -/
theorem read_encPixels (ch n : Nat) (s : State) (i : Nat) :
    (encPixels ch n s).pb.read i =
      if i < 4 * n then some (packedComponent (encodeAt s (ch * (i / 4))) (i % 4)) else s.pb.read i := by
  induction n with
  | zero => simp [encPixels]
  | succ n ih =>
    have huf : (encPixels ch n s).uf = s.uf := by rw [encPixels_eq]; rfl
    rw [encPixels, encPixel, read_storePacked, ih, encodeAt_congr huf]
    by_cases hin : 4 * n ≤ i ∧ i < 4 * n + 4
    · have hdiv : i / 4 = n := by omega
      have hmod : i % 4 = i - 4 * n := by omega
      rw [if_pos hin, if_pos (by omega), hdiv, hmod]
    · rw [if_neg hin]
      by_cases hlt : i < 4 * n
      · rw [if_pos hlt, if_pos (by omega)]
      · rw [if_neg hlt, if_neg (by omega)]

theorem encPixels_wf (ch n : Nat) {s : State} (h : s.pb.wf) : (encPixels ch n s).pb.wf := by
  induction n with
  | zero => exact h
  | succ n ih => exact storePacked_wf _ _ ih

end Sys2Proof.Machine
end

