-- ==== Sys2Proof/Laws/Rounding.lean ====
section
/-! SUPPORT. `roundMag` rounds in the sense of R182: the pattern it gives, with the sign of the exact
result, is related to that result by `RoundsTo`. `FMUL` and `FDIV` round by this one lemma. -/

namespace Sys2Proof.Machine

theorem low_lt_of_finite {c : Word} (h : isFinite c = true) : c.toNat % 2 ^ 31 < 0x7F800000 := by
  rw [isFinite_iff] at h
  have := frac_lt c
  rw [low_eq]
  omega

theorem isFinite_pack (sign : Bool) {low : Nat} (h : low < 0x7F800000) : isFinite (pack sign low) = true := by
  rw [isFinite_iff, ex_pack sign (by omega)]
  omega

theorem isInf_pack (sign : Bool) : isInf (pack sign 0x7F800000) = true := by
  rw [isInf_iff, ex_pack _ (by norm_num), frac_pack _ (by norm_num)]
  norm_num

theorem value_pack (sign : Bool) {low : Nat} (h : low < 2 ^ 31) :
    value (pack sign low) = (-1) ^ sign.toNat * (magOfLow low : ℚ) / 2 ^ 149 := by
  rw [value_eq_mag, signBit_pack sign h, mag_pack sign h]

theorem abs_signed (sign : Bool) {x : ℚ} (hx : 0 ≤ x) : |(-1) ^ sign.toNat * x| = x := by
  cases sign <;> simp [abs_of_nonneg hx]

section
variable (sign : Bool) (n d : Nat)

/-- The exact result: `n / d` units of 2^-149 with a sign. -/
def exactOf : ℚ := (-1) ^ sign.toNat * ((n : ℚ) / d / 2 ^ 149)

variable {sign n d}

theorem abs_exactOf : |exactOf sign n d| = (n : ℚ) / d / 2 ^ 149 := abs_signed sign (by positivity)

/-- The distance of a magnitude with the sign of the result, in whole numbers. -/
theorem distance_same_sign (hd : 0 < d) (m : Nat) :
    |(-1) ^ sign.toNat * (m : ℚ) / 2 ^ 149 - exactOf sign n d| =
      ((|((m * d : Nat) : Int) - (n : Int)| : Int) : ℚ) / (d * 2 ^ 149) := by
  have hdq : (0 : ℚ) < d := by exact_mod_cast hd
  have h : (-1 : ℚ) ^ sign.toNat * m / 2 ^ 149 - exactOf sign n d =
      (-1) ^ sign.toNat * (((((m * d : Nat) : Int) - (n : Int) : Int) : ℚ) / (d * 2 ^ 149)) := by
    unfold exactOf
    push_cast
    field_simp
  rw [h, abs_mul, abs_div]
  cases sign <;> simp [abs_of_pos hdq]

/-- A pattern with the other sign, and not a zero, is farther from the result than zero is. -/
theorem distance_other_sign {c : Word} (hs : signBit c ≠ sign) :
    |value c - exactOf sign n d| = (mag c : ℚ) / 2 ^ 149 + |exactOf sign n d| := by
  have hc : signBit c = !sign := by cases h : signBit c <;> cases sign <;> simp_all
  rw [abs_exactOf, value_eq_mag, hc]
  have h : (-1 : ℚ) ^ (!sign).toNat * mag c / 2 ^ 149 - exactOf sign n d =
      (-1) ^ (!sign).toNat * ((mag c : ℚ) / 2 ^ 149 + (n : ℚ) / d / 2 ^ 149) := by
    unfold exactOf
    cases sign <;> simp
    ring
  rw [h]
  exact abs_signed _ (by positivity)

theorem value_same_sign {c : Word} (hs : signBit c = sign ∨ mag c = 0) :
    value c = (-1) ^ sign.toNat * (magOfLow (c.toNat % 2 ^ 31) : ℚ) / 2 ^ 149 := by
  rw [value_eq_mag, ← mag_eq_magOfLow]
  rcases hs with h | h <;> simp [h]

theorem threshold_iff (hd : 0 < d) :
    (2 : ℚ) ^ 128 - 2 ^ 103 ≤ |exactOf sign n d| ↔ d * ((2 ^ 25 - 1) * 2 ^ 252) ≤ n := by
  have hdq : (0 : ℚ) < d := by exact_mod_cast hd
  rw [abs_exactOf, le_div_iff₀ (by positivity), le_div_iff₀ hdq, ← Nat.cast_le (α := ℚ)]
  push_cast
  constructor <;> intro h <;> (norm_num at h ⊢; linarith)

/-- R182 for the pattern `roundMag` gives. -/
theorem roundsTo_roundMag (hd : 0 < d) : RoundsTo (exactOf sign n d) (pack sign (roundMag n d)) := by
  have hlt := roundMag_lt n d
  have hinf := roundMag_infinite_iff n hd
  have hpos : (0 : ℚ) < d * 2 ^ 149 := by
    have : (0 : ℚ) < d := by exact_mod_cast hd
    positivity
  constructor
  · intro hsmall
    have hfin : roundMag n d < 0x7F800000 := by
      have h1 := roundMag_le n d
      have h2 : ¬ d * ((2 ^ 25 - 1) * 2 ^ 252) ≤ n := by
        rw [← threshold_iff (sign := sign) hd]
        exact not_le.mpr hsmall
      rw [← hinf] at h2
      omega
    have hzero : |value (pack sign (roundMag n d)) - exactOf sign n d| ≤ |exactOf sign n d| := by
      have h0 := (roundMag_nearest n hd hfin 0).1
      rw [show magOfLow 0 = 0 from rfl] at h0
      have h1 := distance_same_sign (sign := sign) (n := n) hd 0
      rw [Nat.cast_zero, mul_zero, zero_div, zero_sub, abs_neg] at h1
      rw [value_pack sign hlt, distance_same_sign hd, h1]
      exact div_le_div_of_nonneg_right (Int.cast_le.mpr h0) hpos.le
    refine ⟨isFinite_pack sign hfin, fun c _ => ?_, fun c _ hne heq => ?_⟩
    · by_cases hs : signBit c = sign ∨ mag c = 0
      · rw [value_same_sign hs, value_pack sign hlt, distance_same_sign hd, distance_same_sign hd]
        exact div_le_div_of_nonneg_right (Int.cast_le.mpr (roundMag_nearest n hd hfin _).1) hpos.le
      · rw [distance_other_sign fun h => hs (.inl h)]
        have : (0 : ℚ) ≤ (mag c : ℚ) / 2 ^ 149 := by positivity
        linarith
    · have heven : roundMag n d % 2 = 0 := by
        by_cases hs : signBit c = sign ∨ mag c = 0
        · rw [value_same_sign hs, value_pack sign hlt] at hne heq
          rw [distance_same_sign hd, distance_same_sign hd, div_left_inj' hpos.ne', Int.cast_inj] at heq
          exact (roundMag_nearest n hd hfin _).2 (fun h => hne (by rw [h])) heq
        · exfalso
          rw [distance_other_sign fun h => hs (.inl h)] at heq
          have hm : (0 : ℚ) < (mag c : ℚ) / 2 ^ 149 := by
            have : (0 : ℚ) < mag c := by exact_mod_cast Nat.pos_of_ne_zero fun h => hs (.inr h)
            positivity
          linarith
      have hbit := frac_pack sign hlt
      simp only [BitVec.getLsbD, hbit, Nat.testBit_zero]
      simp only [decide_eq_false_iff_not]
      omega
  · intro hbig
    rw [hinf.mpr ((threshold_iff hd).mp hbig)]
    refine ⟨isInf_pack sign, ?_⟩
    rw [signBit_pack _ (by norm_num)]
    have hpos' : 0 < (n : ℚ) / d / 2 ^ 149 := by
      rw [← abs_exactOf (sign := sign)]
      exact lt_of_lt_of_le (by norm_num) hbig
    unfold exactOf
    cases sign
    · simp only [Bool.false_eq_true, Bool.toNat_false, pow_zero, one_mul, false_iff, not_lt]
      exact hpos'.le
    · simp only [Bool.toNat_true, pow_one, neg_mul, one_mul, true_iff]
      linarith
end


theorem ex_or (w : Word) {m : Word} (hm : ex m = 255) : ex (w ||| m) = 255 := by
  apply BitVec.eq_of_getLsbD_eq
  intro i hi
  have := congrArg (fun x => x.getLsbD i) hm
  interval_cases i <;> simp [ex] at this ⊢ <;> simp [this]

theorem fracField_or (w m : Word) : fracField (w ||| m) = fracField w ||| fracField m := by
  apply BitVec.eq_of_getLsbD_eq
  intro i hi
  simp [fracField, hi]

/-- Whatever the free bits are, the pattern made from them is a NaN (R186). -/
@[simp] theorem isNan_asNan (w : Word) : isNan (asNan w) = true := by
  unfold asNan
  split
  · rename_i h
    simp only [isNan, ex_or w (by decide : ex 0x7F800001 = 255), fracField_or, h]
    decide
  · rename_i h
    have h0 : fracField 0x7F800000 = 0#23 := by decide
    simp only [isNan, ex_or w (by decide : ex 0x7F800000 = 255), fracField_or, h0, BitVec.or_zero]
    simpa using h

end Sys2Proof.Machine
end

