-- ==== Sys2Proof/Tests/Slice0.lean ====
section
/-! SUPPORT. The model's own tests: expected values are the vectors of spec/95_test_vectors.md, which the
spec derives by hand from its rules, and a witness for the hypotheses of every obligation that has
some. -/

namespace Sys2Proof.Tests

open Sys2Proof.Machine

/-! ### Small states -/

/-- An idle codec just after reset, with the operand registers and the first elements of the buffers set. -/
def idle (a b : Word) (ch len : DWord) (pb : List Byte) (uf : List Word) : State :=
  { State.reset with
    a := a
    b := b
    ch := ch
    len := len
    pb := pb.zipIdx.map fun c => (c.2, c.1)
    uf := uf.zipIdx.map fun c => (c.2, c.1) }

/-- The state after one step, where there is one. -/
def next (o : Host.Outcome State Fault Refusal) : Option State :=
  match o with
  | .next t => some t
  | .fault _ => none
  | .refused _ => none

/-- The state after the command word `w` is fetched and run from `s`. -/
def after (w : Nat) (s : State) : Option State := next (step (s.withFetchWord 32 w))

/-- The result registers after a command: `Y0`, `Y1`, `CNT`, `STATUS`. -/
def results (w : Nat) (s : State) : Option (Word × Word × DWord × Word) :=
  (after w s).map fun t => (t.y0, t.y1, t.cnt, t.status)

/-! ### Decoding: each word written bit by bit from R80 and R81 (29 bits `RSV`, 3 bits `OP`) -/

theorem test_decode_bfx : decodeTableWord 32 0b00000000000000000000000000000000 = some .bfx := by decide
theorem test_decode_bfi : decodeTableWord 32 0b00000000000000000000000000000001 = some .bfi := by decide
theorem test_decode_fxs : decodeTableWord 32 0b00000000000000000000000000000010 = some .fxs := by decide
theorem test_decode_fxe : decodeTableWord 32 0b00000000000000000000000000000011 = some .fxe := by decide
theorem test_decode_dec : decodeTableWord 32 0b00000000000000000000000000000100 = some .dec := by decide
theorem test_decode_enc : decodeTableWord 32 0b00000000000000000000000000000101 = some .enc := by decide

/-- R82, vectors RC: the reserved words are rejected by name. -/
theorem test_decode_reserved :
    decode 0x00000006 = .error .reservedOperation ∧ decode 0x00000007 = .error .reservedOperation ∧
    decode 0x00000008 = .error .reservedBits ∧ decode 0x0000000C = .error .reservedBits ∧
    decode 0x80000002 = .error .reservedBits ∧ decode 0xFFFFFFFF = .error .reservedBits := by decide

/-! ### WellFormed: an ill-formed word for each check, which the check refuses -/

theorem test_wellformed_refuses_operation : operationAssigned 0b110 = false ∧ commandWellFormed 0b110 = false := by
  decide

theorem test_wellformed_refuses_reserved_bit :
    reservedBitsClear 0b1100 = false ∧ operationAssigned 0b1100 = true ∧ commandWellFormed 0b1100 = false := by
  decide

/-! ### The instructions, one step each -/

/-- Vector BX2: -3.1415927. -/
theorem test_bfx_negative : results 0 (idle 0xC0490FDB 0 0 0 [] []) = some (0x80490FDB, 128, 0, 2) := by decide

/-- Vector BX3: all ones; the sign must not reach `Y1`. -/
theorem test_bfx_all_ones : results 0 (idle 0xFFFFFFFF 0 0 0 [] []) = some (0x807FFFFF, 255, 0, 2) := by decide

/-- Vector BI5: the exponent field of `A` and bits 31 to 8 of `B` are ignored. -/
theorem test_bfi_ignores_high_bits :
    results 1 (idle 0x12345678 0xABCDEF85 0 0 [] []) = some (0x42B45678, 0, 0, 2) := by decide

/-- Vector BI4: the sign is kept. -/
theorem test_bfi_keeps_sign : results 1 (idle 0x80000000 0x7E 0 0 [] []) = some (0xBF000000, 0, 0, 2) := by decide

/-- Vector FS9: 1.0 scaled by -135 wraps to 2^121. -/
theorem test_fxs_wraps : results 2 (idle 0x3F800000 0xFFFFFF79 0 0 [] []) = some (0x7C000000, 0, 0, 2) := by decide

/-- Vector FS24: the largest finite number scaled by 2 loses its hidden one. -/
theorem test_fxs_to_subnormal : results 2 (idle 0x7F7FFFFF 2 0 0 [] []) = some (0x007FFFFF, 0, 0, 2) := by decide

/-- Vector FE6: 0.1 has exponent -3. -/
theorem test_fxe_negative_exponent :
    results 3 (idle 0x3DCCCCCD 0 0 0 [] []) = some (0x3F4CCCCD, 0xFFFFFFFD, 0, 2) := by decide

/-- Vector FE16: zero, for which the contract does not hold but the outputs are definite. -/
theorem test_fxe_zero : results 3 (idle 0 0 0 0 [] []) = some (0x3F000000, 0xFFFFFF82, 0, 2) := by decide

/-- Program P2 (S4 with S7): a ragged length, and the element beyond the pixel unchanged. -/
theorem test_dec_truncates :
    (after 4 (idle 0 0 3 5 [255, 255, 255, 136, 77] [0xDEADBEEF, 0xDEADBEEF, 0xDEADBEEF, 0xDEADBEEF])).map
      (fun t => (t.readUf 0, t.readUf 1, t.readUf 2, t.readUf 3, t.cnt)) =
    some (0x437F0000, 0x437F0000, 0x437F0000, 0xDEADBEEF, 3) := by decide

/-- Program P4, first two pixels: an ordinary pixel and the zero sentinel, alpha included (C1). -/
theorem test_dec_alpha :
    (after 4 (idle 0 0 4 8 [128, 64, 32, 129, 9, 9, 9, 0] [])).map
      (fun t => (t.readUf 0, t.readUf 1, t.readUf 3, t.readUf 4, t.readUf 7, t.cnt)) =
    some (0x3F800000, 0x3F000000, 0x3F800000, 0x00000000, 0x00000000, 8) := by decide

/-- Vector EP14 beside EP23's 1.0: negative components wrap. -/
theorem test_enc_wraps :
    (after 5 (idle 0 0 3 3 [] [0x3F800000, 0xBF800000, 0xBF000000])).map
      (fun t => (t.readPb 0, t.readPb 1, t.readPb 2, t.readPb 3, t.cnt)) =
    some (128, 128, 192, 129, 4) := by decide

/-- Program P5: alpha and the trailing component are not read, the second pixel is the zero pixel. -/
theorem test_enc_skips_alpha :
    (after 5 (idle 0 0 4 9 [] [0x42C80000, 0x42480000, 0x41C80000, 0x7FC00000, 0, 0, 0, 0x7FC00000, 0x40E00000])).map
      (fun t => (t.readPb 0, t.readPb 1, t.readPb 2, t.readPb 3, t.readPb 4, t.readPb 7, t.cnt)) =
    some (200, 100, 50, 135, 0, 0, 8) := by decide

/-- Vectors CV: `CH = 2^32 + 3` is invalid, all 64 bits are compared. -/
theorem test_invalid_channels :
    (after 4 (idle 7 8 0x100000003 12 [1] [2])).map (fun t => (t.cnt, t.readPb 0, t.readUf 0, t.uf.length, t.status)) =
      some (0, 1, 2, 1, 2) := by decide

/-- Vectors RC: a reserved command sets `CNT` to 0 and completes. -/
theorem test_reserved_command :
    (after 6 { idle 7 8 3 4 [] [] with cnt := 9, y0 := 5 }).map (fun t => (t.cnt, t.y0, t.status, t.uf.length)) =
      some (0, 5, 2, 0) := by decide

/-! ### Primitives at their corners -/

/-- R182, R185: the greatest finite number negated and doubled overflows to -infinity. -/
theorem test_fmul_overflows : fmul 0xFF7FFFFF 0x40000000 = 0xFF800000 := by decide

/-- R182: 1.5 times the least subnormal is a tie and goes to the even neighbour, two units. -/
theorem test_fmul_tie_to_even : fmul 0x00000001 0x3FC00000 = 0x00000002 ∧ fmul 0x00000001 0x40200000 = 0x00000002 := by
  decide

/-- R187: 1 / 3 is 0x3EAAAAAB, rounded up. -/
theorem test_fdiv_third : fdiv 0x3F800000 0x40400000 = 0x3EAAAAAB := by decide

/-- R190: 255.99, 256.0 and 300.5 give 255, 0 and 44. -/
theorem test_f2u8_wraps : f2u8 0x437FFD71 = 255 ∧ f2u8 0x43800000 = 0 ∧ f2u8 0x43964000 = 44 := by decide

/-! ### Witnesses: a state and operands that meet the hypotheses of each obligation that has some

Where a statement has several clauses there is one conjunct per clause, at a boundary of its range. -/

/-- `idle` with the host's next actions. -/
def asked (xs : List HostAction) : State := { idle 1 2 3 4 [0, 0, 0, 0] [0, 0, 0] with inputs := xs }

/-- An `ENC` of one pixel in progress, with the host's next actions. -/
def encoding (xs : List HostAction) : State := { begin (encode .enc) (asked []) with inputs := xs }

/-- A `DEC` of one pixel in progress, with the host's next actions. -/
def decoding (xs : List HostAction) : State := { begin (encode .dec) (asked []) with inputs := xs }

theorem witness_StepRunsDecodedCommand :
    (asked [.command 5]).inputs = .command 5 :: [] ∧ decode 5 = .ok .enc := by decide

theorem witness_ReservedCommandNoOp :
    (asked [.command 6]).inputs = .command 6 :: [] ∧ (asked [.command 6]).busy = false ∧
    opField 6 = 0b110 ∧ opField 7 = 0b111 ∧ rsvField 8 ≠ 0 ∧ rsvField 0x80000000 ≠ 0 := by decide

theorem witness_EveryCommandCompletes :
    (asked [.command 4]).inputs = .command 4 :: [] ∧ (asked [.command 4]).busy = false ∧
    sizesSuffice (sample 4 (asked [.command 4])) (asked [.command 4]) = true := by decide

/-- For `BfxResult`, `BfiResult`, `FxsResult` and `FxeResult`. -/
theorem witness_scalar_results : State.reset.busy = false ∧ (asked []).busy = false := by decide

theorem witness_ScalerSafeRegion :
    1 ≤ (ex 0x3F800000).toNat ∧ (ex 0x3F800000).toNat ≤ 254 ∧
    1 ≤ ((ex 0x3F800000).toNat : Int) + (-126) ∧ ((ex 0x3F800000).toNat : Int) + 127 ≤ 254 := by decide

theorem witness_ScalerLaws :
    (0x12345679 : Word).extractLsb' 0 8 = (0xFFFFFF79 : Word).extractLsb' 0 8 := by decide

theorem witness_ExtractorContract :
    (ex 0x00800000).toNat = 1 ∧ signBit 0x00800000 = false ∧ (ex 0xFF7FFFFF).toNat = 254 ∧
    signBit 0xFF7FFFFF = true := by decide

theorem witness_ExtractorOutsideContract : ex 0 = 0 ∧ ex 0x807FFFFF = 0 ∧ ex 0x7F800000 = 255 := by decide

/-- For `FmulRoundsToNearest` and `FdivRoundsToNearest`. -/
theorem witness_operand_classes :
    isNan 0x7F800001 = true ∧ isZero 0x80000000 = true ∧ isInf 0xFF800000 = true ∧
    isNan 0x00000001 = false ∧ isZero 0x00000001 = false ∧ isFinite 0x00000001 = true ∧
    isFinite 0x7F7FFFFF = true ∧ isNan (fmul 0x7F7FFFFF 0x7F800000) = false ∧
    isNan (fdiv 0x7F7FFFFF 0x7F800000) = false := by decide

theorem witness_FgtOrdersValues :
    isNan 0xFFFFFFFF = true ∧ isFinite 0x7F7FFFFF = true ∧ isFinite 0 = true ∧
    isNan 0x7F800000 = false ∧ signBit 0x7F800000 = false ∧ fgt 0x7F800000 0x7F7FFFFF = true := by decide

theorem witness_ThresholdComparesWithTenToMinus32 :
    isFinite tHi = true ∧ ltThresh 0x0A4FB11E = true ∧ ltThresh tHi = false ∧
    isNan 0x7FC00000 = true ∧ isNan 0x7F800000 = false := by decide

theorem witness_ByteCastTruncatesAndWraps :
    isFinite 0x4F000000 = true ∧ (2 : ℚ) ^ 31 ≤ |value 0x4F000000| ∧ isNan 0x7F800001 = true := by
  refine ⟨by decide, ?_, by decide⟩
  have e0 : ex 0x4F000000 ≠ 0 := by decide
  have e : (ex 0x4F000000).toNat = 158 := by decide
  have f : (fracField 0x4F000000).toNat = 0 := by decide
  have g : signBit 0x4F000000 = false := by decide
  rw [value, if_neg e0, e, f, g]
  norm_num

theorem witness_MaxOfThree : isNan 0 = false ∧ isNan 0x7F800000 = false ∧ isNan 0x7F800001 = true := by decide

/-- Exponent bytes 10, 9, 8, 7 and 1, with colour bytes 0, 1 and the two sides of `2^(8 - e)`. -/
theorem witness_DecodedColourClosedForm :
    (let p : PackedPixel := ⟨0, 1, 255, 10⟩;
      p.e ≠ 0 ∧ 10 ≤ p.e.toNat ∧ (packedComponent p 0).toNat = 0 ∧ 1 ≤ (packedComponent p 1).toNat) ∧
    (let p : PackedPixel := ⟨0, 1, 2, 7⟩;
      p.e.toNat ≤ 7 ∧ (packedComponent p 0).toNat = 0 ∧ (packedComponent p 1).toNat < 2 ^ (8 - p.e.toNat) ∧
      2 ^ (8 - p.e.toNat) ≤ (packedComponent p 2).toNat) ∧
    (let p : PackedPixel := ⟨127, 128, 255, 1⟩;
      (packedComponent p 0).toNat < 2 ^ (8 - p.e.toNat) ∧ 2 ^ (8 - p.e.toNat) ≤ (packedComponent p 1).toNat) ∧
    (⟨0, 1, 2, 8⟩ : PackedPixel).e = 8 ∧ (⟨0, 1, 2, 9⟩ : PackedPixel).e = 9 := by decide

theorem witness_DecodedAlphaAndZeroSentinel :
    (⟨1, 2, 3, 0⟩ : PackedPixel).e = 0 ∧ (⟨1, 2, 3, 1⟩ : PackedPixel).e ≠ 0 := by decide

/-- For `DecodeBufferResult` and `EncodeBufferResult`: exactly one whole pixel, and buffers of exactly
the sizes needed. -/
theorem witness_buffer_results :
    (let s := { asked [] with pbSize := 4, ufSize := 3 };
      s.busy = false ∧ s.ch = 3 ∧ 4 * (s.len.toNat / 4) = s.pbSize.val ∧
      s.ch.toNat * (s.len.toNat / 4) = s.ufSize.val ∧
      4 * (s.len.toNat / s.ch.toNat) = s.pbSize.val ∧ s.ch.toNat * (s.len.toNat / s.ch.toNat) = s.ufSize.val) ∧
    (let s := { idle 0 0 4 7 [] [] with pbSize := 4, ufSize := 4 };
      s.busy = false ∧ s.ch = 4 ∧ 4 * (s.len.toNat / 4) = s.pbSize.val ∧
      s.ch.toNat * (s.len.toNat / 4) = s.ufSize.val) := by decide

/-- Channel counts beside the legal ones, and one that differs only above bit 31. -/
theorem witness_InvalidChannelsNoOp :
    (idle 0 0 2 4 [] []).busy = false ∧ (2 : DWord) ≠ 3 ∧ (2 : DWord) ≠ 4 ∧ (5 : DWord) ≠ 4 ∧
    (0x100000003 : DWord) ≠ 3 := by decide

theorem witness_SmallBufferRefused :
    (let s := { asked [] with pbSize := 3, ufSize := 3 };
      s.busy = false ∧ s.ch = 3 ∧ s.pbSize.val < 4 * (s.len.toNat / 4) ∧
      s.pbSize.val < 4 * (s.len.toNat / s.ch.toNat)) ∧
    (let s := { asked [] with pbSize := 4, ufSize := 2 };
      s.ufSize.val < s.ch.toNat * (s.len.toNat / 4) ∧ s.ufSize.val < s.ch.toNat * (s.len.toNat / s.ch.toNat)) := by
  decide

/-- For `DecodeIgnoresTrailingElements` and `EncodeIgnoresAlphaAndTrailing`. -/
theorem witness_elements_not_touched :
    (asked []).busy = false ∧ sizesSuffice (sample (encode .dec) (asked [])) (asked []) = true ∧
    elementsPb (sample (encode .dec) (asked [])) = 4 ∧
    sizesSuffice (sample (encode .enc) (asked [])) (asked []) = true ∧
    elementsUf (sample (encode .enc) (asked [])) = 3 ∧ (idle 0 0 4 4 [] []).ch = 4 := by decide

/-- For `EncodeFactorIsExactPower`: the two ends of the range. -/
theorem witness_EncodeFactorIsExactPower :
    isFinite tHi = true ∧ ltThresh tHi = false ∧ isFinite 0x7F7FFFFF = true ∧ ltThresh 0x7F7FFFFF = false := by
  decide

/-- For `EncodedColourClosedForm`: a maximum of 1.0 beside -infinity and beside 0; and a maximum of 1.0
beside the least finite number, whose scaled value is -2^135 and more. -/
theorem witness_EncodedColourClosedForm :
    isFinite (max3 0x3F800000 0xFF800000 0) = true ∧ ltThresh (max3 0x3F800000 0xFF800000 0) = false ∧
    isFinite (max3 0x3F800000 0xFF7FFFFF 0) = true ∧ ltThresh (max3 0x3F800000 0xFF7FFFFF 0) = false ∧
    isFinite 0xFF7FFFFF = true ∧
    (2 : ℚ) ^ 128 ≤ |value 0xFF7FFFFF * (2 : ℚ) ^ (8 - fxeExponent (max3 0x3F800000 0xFF7FFFFF 0))| := by
  refine ⟨by decide, by decide, by decide, by decide, by decide, ?_⟩
  have e0 : ex 0xFF7FFFFF ≠ 0 := by decide
  have e : (ex 0xFF7FFFFF).toNat = 254 := by decide
  have f : (fracField 0xFF7FFFFF).toNat = 8388607 := by decide
  have g : signBit 0xFF7FFFFF = true := by decide
  have x : fxeExponent (max3 0x3F800000 0xFF7FFFFF 0) = 1 := by decide
  rw [value, if_neg e0, e, f, g, x]
  norm_num

/-- Exponent fields 20, 253, 254 and 255 of the maximum. -/
theorem witness_EncodedExponentByte :
    ltThresh (max3 tHi 0 0) = false ∧ (ex (max3 tHi 0 0)).toNat = 20 ∧
    ltThresh (max3 0x7EFFFFFF 0 0) = false ∧ (ex (max3 0x7EFFFFFF 0 0)).toNat = 253 ∧
    ltThresh (max3 0x7F000000 0 0) = false ∧ (ex (max3 0x7F000000 0 0)).toNat = 254 ∧
    ltThresh (max3 0x7F800000 0 0) = false ∧ (ex (max3 0x7F800000 0 0)).toNat = 255 := by decide

/-- The largest pattern below the threshold, and three negative components. -/
theorem witness_BelowThresholdEncodesZeroPixel :
    ltThresh (max3 0x0A4FB11E 0 0) = true ∧ ltThresh (max3 0xBF800000 0xBF800000 0xBF800000) = true := by decide

theorem witness_EncodedNonFinitePixels :
    max3 0 0x7F800000 0x7F800000 = 0x7F800000 ∧ isFinite 0 = true ∧ isInf 0x7F800000 = true ∧
    isNan 0x7F800001 = true ∧ ltThresh (max3 0x3F800000 0x7F800001 0x7F800001) = false ∧
    isFinite (max3 0x3F800000 0xFF800000 0) = true ∧ ltThresh (max3 0x3F800000 0xFF800000 0) = false := by decide

/-- Components at both ends of the range, and a -0.0. -/
theorem witness_RoundTripRoundsDown :
    isFinite tHi = true ∧ signBit tHi = false ∧ isFinite 0x80000000 = true ∧ isZero 0x80000000 = true ∧
    isFinite 0 = true ∧ signBit 0 = false ∧ isFinite 0x7EFFFFFF = true ∧ isFinite 0x3F800000 = true ∧
    ltThresh (max3 tHi 0x80000000 0) = false ∧ (max3 tHi 0x80000000 0).toNat < 0x7F000000 ∧
    ltThresh (max3 0x7EFFFFFF 0x3F800000 0) = false ∧ (max3 0x7EFFFFFF 0x3F800000 0).toNat = 0x7EFFFFFF := by
  decide

theorem witness_RoundTripOfExtremesIsZero :
    ltThresh (max3 0x0A4FB11E 0 0) = true ∧ 0x7F000000 ≤ (max3 0x7F000000 0 0).toNat ∧
    (max3 0x7F7FFFFF 0 0).toNat < 0x7F800000 := by decide

theorem witness_PixelOrderUnobservable :
    (let s := idle 0 0 3 8 [] [];
      s.pb.wf ∧ s.uf.wf ∧ s.busy = false ∧ sizesSuffice (sample (encode .dec) s) s = true ∧
      [1, 0].Perm (List.range (decCount (sample (encode .dec) s))) ∧
      sizesSuffice (sample (encode .enc) s) s = true ∧
      [1, 0].Perm (List.range (encCount (sample (encode .enc) s)))) := by decide

theorem witness_RepeatingAnOperationChangesNothing :
    (asked []).pb.wf ∧ (asked []).uf.wf ∧ (asked []).busy = false ∧
    (∀ i ∈ [Instr.bfx, .bfi, .fxs, .fxe, .dec, .enc],
      sizesSuffice (sample (encode i) (asked [])) (asked []) = true) := by decide

/-- Two states that differ in what an operation must not read: `Y0`, `CNT`, and `B` above bit 7. -/
theorem witness_ResultsDependOnOperandsAlone :
    (let s := asked [];
     let t := { asked [] with y0 := 9, cnt := 9, b := 0xFFFFFF02 };
      s.busy = false ∧ t.busy = false ∧ s.a = t.a ∧ s.b.extractLsb' 0 8 = t.b.extractLsb' 0 8 ∧
      s.ch = t.ch ∧ s.len = t.len ∧
      sizesSuffice (sample (encode .dec) s) s = true ∧ sizesSuffice (sample (encode .enc) t) t = true ∧
      (∀ k < 4, s.pb.read k = t.pb.read k) ∧ (∀ k < 3, s.uf.read k = t.uf.read k)) := by decide

theorem witness_IssueSamplesOperands :
    (asked [.write .cmd 4]).inputs = .write .cmd 4 :: [] ∧ (asked [.write .cmd 4]).busy = false ∧
    sizesSuffice (sample ((4 : DWord).setWidth 32) (asked [.write .cmd 4])) (asked [.write .cmd 4]) = true := by
  decide

theorem witness_OnlyCommandWriteStarts :
    (asked [.write .cmd 4]).running = none ∧
    (next (step (asked [.write .cmd 4]))).map (fun t => t.running.isSome) = some true := by decide

theorem witness_OperationCompletesInBoundedSteps :
    Inv (decoding []) ∧ (decoding []).running = some (sample 4 (asked [])) ∧ (decoding []).inputs = [] ∧
    pixelCount (sample 4 (asked [])) = 1 := by decide

theorem witness_StepKeepsInv :
    Inv (decoding []) ∧ (next (step (decoding []))).isSome = true ∧
    Inv (asked [.writeUf 2 5]) ∧ (next (step (asked [.writeUf 2 5]))).isSome = true := by decide

theorem witness_ResetWhileIdle :
    (asked [.reset]).inputs = .reset :: [] ∧ (asked [.reset]).running = none := by decide

/-- A `DEC` and an `ENC` in progress, and where the destination of each ends. -/
theorem witness_ResetDuringOperation :
    (decoding [.reset]).inputs = .reset :: [] ∧ (decoding [.reset]).running = some (sample 4 (asked [])) ∧
    decode (sample 4 (asked [])).cmd = .ok .dec ∧ elementsUf (sample 4 (asked [])) = 3 ∧
    (encoding [.reset]).inputs = .reset :: [] ∧ (encoding [.reset]).running = some (sample 5 (asked [])) ∧
    decode (sample 5 (asked [])).cmd = .ok .enc ∧ elementsPb (sample 5 (asked [])) = 4 := by decide

theorem witness_HostRegisterWrite :
    (asked [.write .a 0x1FFFFFFFF]).inputs = .write .a 0x1FFFFFFFF :: [] ∧
    (asked [.write .a 0x1FFFFFFFF]).busy = false ∧ Reg.a ≠ .cmd := by decide

theorem witness_HostRegisterRead :
    (asked [.read .cnt]).inputs = .read .cnt :: [] ∧ (asked [.read .cnt]).busy = false ∧
    (decoding [.read .status]).inputs = .read .status :: [] ∧ (decoding [.read .status]).busy = true := by decide

theorem witness_BusyHostRefused :
    (decoding [.write .a 0]).inputs = .write .a 0 :: [] ∧ (decoding [.write .a 0]).busy = true ∧
    HostAction.write .a 0 ≠ .read .status ∧ HostAction.write .a 0 ≠ .codec ∧ HostAction.write .a 0 ≠ .reset ∧
    HostAction.command 0 ≠ .codec := by decide

/-- A write and a read of the last element of each buffer, and of the one after it: all eight clauses. -/
theorem witness_HostBufferAccess :
    (let s := fun x => { asked [x] with pbSize := 4, ufSize := 3 };
      (∀ x ∈ [HostAction.writePb 3 1, .writeUf 2 1, .readPb 3, .readUf 2, .writePb 4 1, .writeUf 3 1,
          .readPb 4, .readUf 3],
        (s x).busy = false ∧ (s x).inputs = x :: [] ∧ (s x).pbSize.val = 4 ∧ (s x).ufSize.val = 3) ∧
      (3 < (s (.writePb 3 1)).pbSize.val) ∧ (2 < (s (.writeUf 2 1)).ufSize.val) ∧
      (3 < (s (.readPb 3)).pbSize.val) ∧ (2 < (s (.readUf 2)).ufSize.val) ∧
      (s (.writePb 4 1)).pbSize.val ≤ 4 ∧ (s (.writeUf 3 1)).ufSize.val ≤ 3 ∧
      (s (.readPb 4)).pbSize.val ≤ 4 ∧ (s (.readUf 3)).ufSize.val ≤ 3) := by decide

theorem witness_IdleCodecHolds : (asked []).inputs = [] ∧ (asked []).running = none := by decide

end Sys2Proof.Tests
end

section
/-! The decoder and a whole operation: every command, taken in one step or pixel by pixel, is the issue
step, the pixels of its operation in ascending order, and its result registers (R31, R33, R64, R82). -/

namespace Sys2Proof.Machine

/-! ### The decoder against the encoder (R81) -/

@[simp] theorem decode_encode (i : Instr) : decode (encode i) = .ok i := by
  cases i <;> decide

/-- The two fields of R80 make up the word. -/
theorem command_toNat (w : Word) : w.toNat = (rsvField w).toNat * 8 + (opField w).toNat := by
  have := w.isLt
  simp only [rsvField, opField, BitVec.extractLsb'_toNat, Nat.shiftRight_eq_div_pow]
  omega

/-- Only the word of its row selects an operation. -/
theorem eq_encode_of_decode {w : Word} {i : Instr} (h : decode w = .ok i) : w = encode i := by
  have hw := command_toNat w
  unfold decode at h
  split at h
  · rename_i hclear
    have hrsv : rsvField w = 0 := by simpa [reservedBitsClear] using hclear
    rw [hrsv] at hw
    apply BitVec.eq_of_toNat_eq
    split at h <;> cases h <;> simp_all [encode]
  · cases h

/-! ### The pixels of an operation -/

/-- What the pixel step of an operation is: an iteration of `DEC`'s loop, of `ENC`'s, or nothing. -/
theorem pixelWork_cases (r : Running) (s : State) :
    (decode r.cmd = .ok .dec ∧ pixelWork r s = decPixel (channels r) r.pix s) ∨
    (decode r.cmd = .ok .enc ∧ pixelWork r s = encPixel (channels r) r.pix s) ∨
    pixelWork r s = s := by
  unfold pixelWork
  split <;> simp_all

/-- A pixel step touches the two spaces only (R34, R54). -/
theorem pixelWork_frame (r : Running) (s : State) :
    ∃ m u, pixelWork r s = (s.setPb m).setUf u := by
  rcases pixelWork_cases r s with ⟨_, h⟩ | ⟨_, h⟩ | h
  · exact ⟨s.pb, _, h.trans (decPixel_eq _ _ s)⟩
  · exact ⟨(encPixel (channels r) r.pix s).pb, s.uf, h.trans (encPixel_eq _ _ s)⟩
  · exact ⟨s.pb, s.uf, h⟩

/-- The result registers are all that a completion step writes beside `STATUS` (R33, R34). -/
theorem resultWork_frame (r : Running) (s : State) :
    ∃ y0 y1 cnt, resultWork r s = ((s.setY0 y0).setY1 y1).setCnt cnt := by
  unfold resultWork
  split
  · exact ⟨sm r.a, (ex r.a).setWidth 32, s.cnt, rfl⟩
  · exact ⟨ins r.a (insertedExponent r), s.y1, s.cnt, rfl⟩
  · exact ⟨fxs r.a (powerOfTwo r), s.y1, s.cnt, rfl⟩
  · exact ⟨fxeMantissa r.a, BitVec.ofInt 32 (fxeExponent r.a), s.cnt, rfl⟩
  · exact ⟨s.y0, s.y1, _, rfl⟩
  · exact ⟨s.y0, s.y1, _, rfl⟩
  · exact ⟨s.y0, s.y1, _, rfl⟩

/-- The first `n` pixels of operation `r`, in ascending order (R64). -/
def pixelRun (r : Running) : Nat → State → State
  | 0, s => s
  | n + 1, s => pixelWork { r with pix := n } (pixelRun r n s)

theorem pixelRun_dec {r : Running} (h : decode r.cmd = .ok .dec) (n : Nat) (s : State) :
    pixelRun r n s = decPixels (channels r) n s := by
  induction n with
  | zero => rfl
  | succ n ih => simp [pixelRun, decPixels, pixelWork, h, ih, channels]

theorem pixelRun_enc {r : Running} (h : decode r.cmd = .ok .enc) (n : Nat) (s : State) :
    pixelRun r n s = encPixels (channels r) n s := by
  induction n with
  | zero => rfl
  | succ n ih => simp [pixelRun, encPixels, pixelWork, h, ih, channels]

theorem pixelRun_frame (r : Running) (n : Nat) (s : State) :
    ∃ m u, pixelRun r n s = (s.setPb m).setUf u := by
  induction n with
  | zero => exact ⟨s.pb, s.uf, rfl⟩
  | succ n ih =>
    obtain ⟨m, u, hrun⟩ := ih
    obtain ⟨m', u', hpixel⟩ := pixelWork_frame { r with pix := n } (pixelRun r n s)
    exact ⟨m', u', by rw [pixelRun, hpixel, hrun]; rfl⟩

@[simp] theorem pixelRun_inputs (r : Running) (n : Nat) (s : State) : (pixelRun r n s).inputs = s.inputs := by
  obtain ⟨m, u, h⟩ := pixelRun_frame r n s
  rw [h]; rfl

@[simp] theorem resultWork_inputs (r : Running) (s : State) : (resultWork r s).inputs = s.inputs := by
  obtain ⟨y0, y1, cnt, h⟩ := resultWork_frame r s
  rw [h]; rfl

/-! ### A whole operation, of any command word -/

/-- What any operation does between its issue step and its completion step: all its pixels, then its
result registers. -/
def operationWork (r : Running) (s : State) : State := resultWork r (pixelRun r (pixelCount r) s)

theorem operationWork_bfx {r : Running} (h : decode r.cmd = .ok .bfx) (s : State) :
    operationWork r s = bfxWork r s := by simp [operationWork, resultWork, pixelCount, pixelRun, h]

theorem operationWork_bfi {r : Running} (h : decode r.cmd = .ok .bfi) (s : State) :
    operationWork r s = bfiWork r s := by simp [operationWork, resultWork, pixelCount, pixelRun, h]

theorem operationWork_fxs {r : Running} (h : decode r.cmd = .ok .fxs) (s : State) :
    operationWork r s = fxsWork r s := by simp [operationWork, resultWork, pixelCount, pixelRun, h]

theorem operationWork_fxe {r : Running} (h : decode r.cmd = .ok .fxe) (s : State) :
    operationWork r s = fxeWork r s := by simp [operationWork, resultWork, pixelCount, pixelRun, h]

theorem operationWork_dec {r : Running} (h : decode r.cmd = .ok .dec) (s : State) :
    operationWork r s = decWork r s := by
  simp [operationWork, decWork, resultWork, pixelCount_dec h, pixelRun_dec h, h]

theorem operationWork_enc {r : Running} (h : decode r.cmd = .ok .enc) (s : State) :
    operationWork r s = encWork r s := by
  simp [operationWork, encWork, resultWork, pixelCount_enc h, pixelRun_enc h, h]

theorem operationWork_reserved {r : Running} {e : DecodeError} (h : decode r.cmd = .error e) (s : State) :
    operationWork r s = reservedWork r s := by simp [operationWork, resultWork, pixelCount, pixelRun, h]

@[simp] theorem operationWork_inputs (r : Running) (s : State) : (operationWork r s).inputs = s.inputs := by
  simp [operationWork]

/-- A whole operation depends on its work at the sampled operands only. -/
theorem operate_congr {w : Word} {work work' : Running → State → State} {s : State}
    (h : ∀ t, work (sample w s) t = work' (sample w s) t) : operate w work s = operate w work' s := by
  simp only [operate, h]

/-- Every operation of the table has the one shape of R31, R33, R64. -/
theorem exec_eq_operate (i : Instr) (s : State) : exec i s = operate (encode i) operationWork s := by
  have hd := decode_encode i
  cases i with
  | bfx => exact (operate_congr (operationWork_bfx hd)).symm
  | bfi => exact (operate_congr (operationWork_bfi hd)).symm
  | fxs => exact (operate_congr (operationWork_fxs hd)).symm
  | fxe => exact (operate_congr (operationWork_fxe hd)).symm
  | dec => exact (operate_congr (operationWork_dec hd)).symm
  | enc => exact (operate_congr (operationWork_enc hd)).symm

/-- So has every command word, a reserved one included (R82). -/
theorem runCommand_eq_operate (w : Word) (s : State) : runCommand w s = operate w operationWork s := by
  unfold runCommand
  cases hd : decode w with
  | ok i => rw [eq_encode_of_decode hd]; exact exec_eq_operate i s
  | error e => exact (operate_congr (operationWork_reserved hd)).symm

end Sys2Proof.Machine
end

section
/-! What one step of the machine can do, said once, and the codec's own steps (R31 to R36). -/

namespace Sys2Proof.Machine

/-! ### Which of the two agents moves -/

theorem step_cons {s : State} {x : HostAction} {rest : List HostAction} (h : s.inputs = x :: rest) :
    step s = perform x (s.setInputs rest) := by
  simp only [step, stepOnce, h]

theorem step_nil {s : State} (h : s.inputs = []) : step s = .next (codecStep s) := by
  simp only [step, stepOnce, h]

@[simp] theorem busy_setInputs (s : State) (l : List HostAction) : (s.setInputs l).busy = s.busy := rfl

/-! ### The codec's own step -/

theorem codecStep_idle {s : State} (h : s.running = none) : codecStep s = s := by
  simp only [codecStep, h]

theorem codecStep_pixel {s : State} {r : Running} (h : s.running = some r) (hp : r.pix < pixelCount r) :
    codecStep s = (pixelWork r s).setRunning (some { r with pix := r.pix + 1 }) := by
  simp only [codecStep, h, if_pos hp]

theorem codecStep_complete {s : State} {r : Running} (h : s.running = some r) (hp : pixelCount r ≤ r.pix) :
    codecStep s = finish (resultWork r s) := by
  simp only [codecStep, h, if_neg (Nat.not_lt.mpr hp)]

@[simp] theorem codecStep_inputs (s : State) : (codecStep s).inputs = s.inputs := by
  cases h : s.running with
  | none => rw [codecStep_idle h]
  | some r =>
    rcases Nat.lt_or_ge r.pix (pixelCount r) with hp | hp
    · obtain ⟨m, u, hw⟩ := pixelWork_frame r s
      rw [codecStep_pixel h hp, hw]; rfl
    · rw [codecStep_complete h hp]; simp

/-- While pixels are left, each step of the codec advances `PIX` by one (R36). -/
theorem iterate_codecStep_running {s : State} {r : Running} (h : s.running = some r) {n : Nat}
    (hn : n ≤ pixelCount r - r.pix) :
    (codecStep^[n] s).running = some { r with pix := r.pix + n } := by
  induction n with
  | zero => exact h
  | succ n ih =>
    have hp : r.pix + n < pixelCount r := by omega
    rw [Function.iterate_succ_apply', codecStep_pixel (ih (by omega)) hp]
    rfl

/-- With no host action to come, a run of the machine is the codec's own steps. -/
theorem run_of_no_inputs (n : Nat) {s : State} (h : s.inputs = []) :
    Sys2Proof.core.run n s = .next (codecStep^[n] s) := by
  induction n generalizing s with
  | zero => rfl
  | succ n ih =>
    have hstep : Sys2Proof.core.step s = .next (codecStep s) := step_nil h
    simp only [Host.Core.run, hstep]
    exact ih ((codecStep_inputs s).trans h)

/-! ### Register accesses -/

theorem readReg_setA (g : Reg) (s : State) (v : Word) :
    readReg g (s.setA v) = if g = .a then v.setWidth 64 else readReg g s := by cases g <;> rfl

theorem readReg_setB (g : Reg) (s : State) (v : Word) :
    readReg g (s.setB v) = if g = .b then v.setWidth 64 else readReg g s := by cases g <;> rfl

theorem readReg_setCh (g : Reg) (s : State) (v : DWord) :
    readReg g (s.setCh v) = if g = .ch then v else readReg g s := by cases g <;> rfl

theorem readReg_setLen (g : Reg) (s : State) (v : DWord) :
    readReg g (s.setLen v) = if g = .len then v else readReg g s := by cases g <;> rfl

@[simp] theorem readReg_setInputs (g : Reg) (s : State) (l : List HostAction) :
    readReg g (s.setInputs l) = readReg g s := by cases g <;> rfl

/-- What a write of `v` to register `g` makes of an idle codec, `CMD` aside (R22). -/
def writeReg (g : Reg) (v : DWord) (s : State) : State :=
  match g with
  | .a => s.setA (v.setWidth 32)
  | .b => s.setB (v.setWidth 32)
  | .ch => s.setCh v
  | .len => s.setLen v
  | .cmd => s
  | .status => s
  | .y0 => s
  | .y1 => s
  | .cnt => s

theorem hostWrite_of_idle {g : Reg} (hg : g ≠ .cmd) (v : DWord) {s : State} (hb : s.busy = false) :
    hostWrite g v s = .next (writeReg g v s) := by
  cases g <;> simp_all [hostWrite, writeReg]

theorem readReg_writeReg_other {g g' : Reg} (h : g' ≠ g) (v : DWord) (s : State) :
    readReg g' (writeReg g v s) = readReg g' s := by
  cases g with
  | a => exact (readReg_setA g' s _).trans (if_neg h)
  | b => exact (readReg_setB g' s _).trans (if_neg h)
  | ch => exact (readReg_setCh g' s _).trans (if_neg h)
  | len => exact (readReg_setLen g' s _).trans (if_neg h)
  | cmd | status | y0 | y1 | cnt => rfl

/-- Of the state, a register write reaches the four operand registers only. -/
theorem writeReg_frame (g : Reg) (v : DWord) (s : State) :
    ∃ a b ch len, writeReg g v s = { s with a := a, b := b, ch := ch, len := len } := by
  cases g with
  | a => exact ⟨v.setWidth 32, s.b, s.ch, s.len, rfl⟩
  | b => exact ⟨s.a, v.setWidth 32, s.ch, s.len, rfl⟩
  | ch => exact ⟨s.a, s.b, v, s.len, rfl⟩
  | len => exact ⟨s.a, s.b, s.ch, v, rfl⟩
  | cmd | status | y0 | y1 | cnt => exact ⟨s.a, s.b, s.ch, s.len, rfl⟩

theorem hostRead_of_allowed {g : Reg} {s : State} (h : s.busy = false ∨ g = .status) :
    hostRead g s = .next (s.setRdata (readReg g s)) := by
  rcases h with h | rfl <;> simp [hostRead, *]

/-! ### The host's actions -/

/-- Every way one action `x` can take state `s` to a next state. -/
inductive ActionResult (s : State) : HostAction → State → Prop
  | issue (v : DWord) (idle : s.busy = false) (sizes : sizesSuffice (sample (v.setWidth 32) s) s = true) :
      ActionResult s (.write .cmd v) (begin (v.setWidth 32) s)
  | writeReg (g : Reg) (v : DWord) (notCmd : g ≠ .cmd) (idle : s.busy = false) :
      ActionResult s (.write g v) (writeReg g v s)
  | readReg (g : Reg) (allowed : s.busy = false ∨ g = .status) :
      ActionResult s (.read g) (s.setRdata (readReg g s))
  | command (w : Word) (idle : s.busy = false) (sizes : sizesSuffice (sample w s) s = true) :
      ActionResult s (.command w) (finish (operationWork (sample w s) (begin w s)))
  | codec : ActionResult s .codec (codecStep s)
  | writePb (i : Nat) (v : Byte) (idle : s.busy = false) (inside : i < s.pbSize.val) :
      ActionResult s (.writePb i v) (s.writePb i v)
  | readPb (i : Nat) (idle : s.busy = false) (inside : i < s.pbSize.val) :
      ActionResult s (.readPb i) (s.setRdata ((s.readPb i).setWidth 64))
  | writeUf (j : Nat) (v : Word) (idle : s.busy = false) (inside : j < s.ufSize.val) :
      ActionResult s (.writeUf j v) (s.writeUf j v)
  | readUf (j : Nat) (idle : s.busy = false) (inside : j < s.ufSize.val) :
      ActionResult s (.readUf j) (s.setRdata ((s.readUf j).setWidth 64))
  | reset : ActionResult s .reset (resetEvent s)

theorem hostWrite_result {g : Reg} {v : DWord} {s t : State} (h : hostWrite g v s = .next t) :
    ActionResult s (.write g v) t := by
  by_cases hg : g = .cmd
  · subst hg
    rcases issue_cases (v.setWidth 32) s with ⟨hb, hi⟩ | ⟨hb, hs, hi⟩ | ⟨hb, hs, hi⟩ <;>
      simp only [hostWrite, hb, hi] at h <;> cases h
    exact .issue v hb hs
  · obtain ⟨hb, _⟩ := hostWrite_next hg h
    cases (hostWrite_of_idle hg v hb).symm.trans h
    exact .writeReg g v hg hb

theorem perform_result {x : HostAction} {s t : State} (h : perform x s = .next t) : ActionResult s x t := by
  cases x with
  | write g v => exact hostWrite_result h
  | read g => obtain ⟨hg, rfl⟩ := hostRead_next h; exact .readReg g hg
  | command w =>
    obtain ⟨hb, hs, rfl⟩ := operate_next ((runCommand_eq_operate w s).symm.trans h)
    exact .command w hb hs
  | codec => cases h; exact .codec
  | writePb i v => obtain ⟨hb, hi, rfl⟩ := hostWritePb_next h; exact .writePb i v hb hi
  | readPb i => obtain ⟨hb, hi, rfl⟩ := hostReadPb_next h; exact .readPb i hb hi
  | writeUf j v => obtain ⟨hb, hj, rfl⟩ := hostWriteUf_next h; exact .writeUf j v hb hj
  | readUf j => obtain ⟨hb, hj, rfl⟩ := hostReadUf_next h; exact .readUf j hb hj
  | reset => cases h; exact .reset

end Sys2Proof.Machine
end

section
/-! The invariant `Inv` of Safety.lean, kept by each thing a step can do. -/

namespace Sys2Proof.Machine

/-- Both spaces are in canonical form and within what the caller allocated. -/
abbrev spacesGood (s : State) : Prop := spaceGood s.pb s.pbSize ∧ spaceGood s.uf s.ufSize

theorem spaceGood_write {width : Nat} {m : Memory width} {size : Size} (h : spaceGood m size) {i : Nat}
    (hi : i < size.val) (v : BitVec width) : spaceGood (m.write i v) size :=
  ⟨Memory.write_wf h.1 i v, Memory.write_bounded h.2 hi v⟩

theorem spaceGood_fill {width : Nat} {m : Memory width} {size : Size} (h : spaceGood m size)
    (f : Nat → BitVec width) {n : Nat} (hn : n ≤ size.val) : spaceGood (m.fill f n) size :=
  ⟨Memory.fill_wf h.1 f n, Memory.fill_bounded h.2 f hn⟩

/-- A pixel below the pixel count is stored within the buffers of R69. -/
theorem pixelWork_spacesGood {r : Running} {s : State} (hs : sizesSuffice r s = true)
    (hp : r.pix < pixelCount r) (h : spacesGood s) : spacesGood (pixelWork r s) := by
  obtain ⟨hpb, huf⟩ := h
  obtain ⟨hsizePb, hsizeUf⟩ := (sizesSuffice_iff r s).mp hs
  rcases pixelWork_cases r s with ⟨_, he⟩ | ⟨_, he⟩ | he
  · have hch := channels_of_valid (valid_of_pixel (Nat.ne_zero_of_lt hp))
    have hin : channels r * r.pix + channels r ≤ s.ufSize.val :=
      calc channels r * r.pix + channels r = channels r * (r.pix + 1) := (Nat.mul_succ _ _).symm
        _ ≤ elementsUf r := Nat.mul_le_mul_left _ hp
        _ ≤ s.ufSize.val := hsizeUf
    rw [he, decPixel_eq]
    exact ⟨hpb, storeUnpacked_wf _ _ _ huf.1, storeUnpacked_bounded hch _ huf.2 hin⟩
  · have hin : 4 * r.pix + 4 ≤ s.pbSize.val := by unfold elementsPb at hsizePb; omega
    rw [he, encPixel_eq]
    exact ⟨⟨storePacked_wf _ _ hpb.1, storePacked_bounded _ hpb.2 hin⟩, huf⟩
  · rw [he]; exact ⟨hpb, huf⟩

theorem pixelRun_spacesGood {r : Running} {s : State} (hs : sizesSuffice r s = true) {n : Nat}
    (hn : n ≤ pixelCount r) (h : spacesGood s) : spacesGood (pixelRun r n s) := by
  induction n with
  | zero => exact h
  | succ n ih =>
    obtain ⟨m, u, hframe⟩ := pixelRun_frame r n s
    have hsizes : sizesSuffice { r with pix := n } (pixelRun r n s) = true := by rw [hframe]; exact hs
    exact pixelWork_spacesGood hsizes hn (ih (by omega))

theorem resultWork_spacesGood (r : Running) {s : State} (h : spacesGood s) : spacesGood (resultWork r s) := by
  obtain ⟨y0, y1, cnt, hframe⟩ := resultWork_frame r s
  rw [hframe]; exact h

theorem operationWork_spacesGood {r : Running} {s : State} (hs : sizesSuffice r s = true) (h : spacesGood s) :
    spacesGood (operationWork r s) :=
  resultWork_spacesGood r (pixelRun_spacesGood hs (Nat.le_refl _) h)

/-- With no operation in progress the invariant is about `STATUS` and the spaces only. -/
theorem inv_of_idle {s : State} (hstatus : s.status = statusIdle ∨ s.status = statusDone)
    (hrun : s.running = none) (h : spacesGood s) : Inv s := by
  refine ⟨?_, ?_, by simp [hrun], h⟩
  · rcases hstatus with hs | hs
    · exact .inl hs
    · exact .inr (.inr hs)
  · rcases hstatus with hs | hs <;> simp [State.busy, hs, hrun, statusIdle, statusDone]

/-- While idle, a change of anything but `STATUS` and the operation in progress keeps the invariant as
long as it keeps the spaces good. -/
theorem inv_of_idle_frame {s t : State} (h : Inv s) (hb : s.busy = false) (hstatus : t.status = s.status)
    (hrun : t.running = s.running) (hspaces : spacesGood t) : Inv t := by
  obtain ⟨hlegal, hbusy, _⟩ := h
  refine inv_of_idle ?_ (hrun.trans (by simpa [hb] using hbusy)) hspaces
  rw [hstatus]
  rcases hlegal with hs | hs | hs
  · exact .inl hs
  · simp [State.busy, hs, statusBusy] at hb
  · exact .inr hs

theorem inv_finish {s : State} (h : spacesGood s) : Inv (finish s) :=
  inv_of_idle (.inr rfl) rfl h

theorem inv_begin {w : Word} {s : State} (hs : sizesSuffice (sample w s) s = true) (h : spacesGood s) :
    Inv (begin w s) := by
  refine ⟨.inr (.inl rfl), by simp, ?_, h⟩
  rintro r ⟨⟩
  exact ⟨hs, Nat.zero_le _, rfl, rfl, rfl, rfl⟩

theorem inv_codecStep {s : State} (h : Inv s) : Inv (codecStep s) := by
  cases hr : s.running with
  | none => rwa [codecStep_idle hr]
  | some r =>
    obtain ⟨hstatus, hbusy, hrun, hspaces⟩ := h
    obtain ⟨hsizes, hpix, hoperands⟩ := hrun r hr
    rcases Nat.lt_or_ge r.pix (pixelCount r) with hp | hp
    · have hgood := pixelWork_spacesGood hsizes hp hspaces
      rw [codecStep_pixel hr hp]
      obtain ⟨m, u, hframe⟩ := pixelWork_frame r s
      rw [hframe] at hgood ⊢
      refine ⟨hstatus, hbusy.trans (by simp [hr]), ?_, hgood⟩
      rintro r' ⟨⟩
      exact ⟨hsizes, hp, hoperands⟩
    · rw [codecStep_complete hr hp]
      exact inv_finish (resultWork_spacesGood r hspaces)

theorem inv_iterate_codecStep {s : State} (h : Inv s) (n : Nat) : Inv (codecStep^[n] s) := by
  induction n with
  | zero => exact h
  | succ n ih => rw [Function.iterate_succ_apply']; exact inv_codecStep ih

/-- A reset fills the destination of the operation it abandons, which is within the buffers (U10). -/
theorem resetEvent_spacesGood {s : State} (h : Inv s) : spacesGood (resetEvent s) := by
  obtain ⟨_, _, hrun, hpb, huf⟩ := h
  simp only [resetEvent, resetMemory]
  cases hr : s.running with
  | none => exact ⟨hpb, huf⟩
  | some r =>
    obtain ⟨hsizes, _⟩ := hrun r hr
    obtain ⟨hsizePb, hsizeUf⟩ := (sizesSuffice_iff r s).mp hsizes
    constructor
    · show spaceGood (abandon r s).pb s.pbSize
      rw [abandon_pb]
      split
      · exact spaceGood_fill hpb _ hsizePb
      · exact hpb
    · show spaceGood (abandon r s).uf s.ufSize
      rw [abandon_uf]
      split
      · exact spaceGood_fill huf _ hsizeUf
      · exact huf

/-- Whatever an action does, it keeps the invariant. -/
theorem inv_of_result {s t : State} {x : HostAction} (h : Inv s) (hx : ActionResult s x t) : Inv t := by
  have ⟨_, _, _, hspaces⟩ := h
  cases hx with
  | issue v _ sizes => exact inv_begin sizes hspaces
  | writeReg g v _ idle =>
    obtain ⟨a, b, ch, len, hframe⟩ := writeReg_frame g v s
    rw [hframe]
    exact inv_of_idle_frame h idle rfl rfl hspaces
  | readReg | readPb | readUf => exact h
  | command w idle sizes =>
    exact inv_finish (operationWork_spacesGood (s := begin w s) sizes hspaces)
  | codec => exact inv_codecStep h
  | writePb i v idle inside =>
    exact inv_of_idle_frame h idle rfl rfl ⟨spaceGood_write hspaces.1 inside v, hspaces.2⟩
  | writeUf j v idle inside =>
    exact inv_of_idle_frame h idle rfl rfl ⟨hspaces.1, spaceGood_write hspaces.2 inside v⟩
  | reset => exact inv_of_idle (.inl rfl) rfl (resetEvent_spacesGood h)

end Sys2Proof.Machine
end

section
/-! What an operation leaves in its result registers and its destination depends on its operands and
its source alone (R21). -/

namespace Sys2Proof.Machine

/-- A whole command from an idle codec with large enough buffers. -/
theorem runCommand_of_ready {w : Word} {s : State} (hb : s.busy = false)
    (hs : sizesSuffice (sample w s) s = true) :
    runCommand w s = .next (finish (operationWork (sample w s) (begin w s))) :=
  (runCommand_eq_operate w s).trans (operate_of_ready operationWork hb hs)

theorem exec_of_ready {i : Instr} {s : State} (hb : s.busy = false)
    (hs : sizesSuffice (sample (encode i) s) s = true) :
    exec i s = .next (finish (operationWork (sample (encode i) s) (begin (encode i) s))) :=
  (exec_eq_operate i s).trans (operate_of_ready operationWork hb hs)

/-! ### The spaces through the completion step -/

@[simp] theorem readPb_finish (s : State) (k : Nat) : (finish s).readPb k = s.readPb k := rfl
@[simp] theorem readUf_finish (s : State) (k : Nat) : (finish s).readUf k = s.readUf k := rfl

/-! ### The source of a pixel -/

theorem packedAt_of_readPb {s t : State} {n p : Nat} (h : ∀ k, k < 4 * n → s.readPb k = t.readPb k)
    (hp : p < n) : packedAt s p = packedAt t p := by
  simp only [packedAt, PackedPixel.mk.injEq]
  exact ⟨h _ (by omega), h _ (by omega), h _ (by omega), h _ (by omega)⟩

/-- `ENC` reads within the pixel, of three or four elements (R168). -/
theorem encodeAt_of_readUf {s t : State} {ch n p : Nat} (hch : ch = 3 ∨ ch = 4)
    (h : ∀ k, k < ch * n → s.readUf k = t.readUf k) (hp : p < n) :
    encodeAt s (ch * p) = encodeAt t (ch * p) := by
  have hin : ch * p + ch ≤ ch * n :=
    calc ch * p + ch = ch * (p + 1) := (Nat.mul_succ ch p).symm
      _ ≤ ch * n := Nat.mul_le_mul_left ch hp
  simp only [encodeAt]
  rw [h (ch * p) (by omega), h (ch * p + 1) (by omega), h (ch * p + 2) (by omega)]

/-! ### The destination after an operation -/

theorem readUf_operationWork_dec {r : Running} (hd : decode r.cmd = .ok .dec) (s : State) {k : Nat}
    (hk : k < elementsUf r) :
    (operationWork r s).readUf k =
      unpackedComponent (decPx (packedAt s (k / channels r))) (k % channels r) := by
  have hcount : pixelCount r ≠ 0 := by rintro h; simp [elementsUf, h] at hk
  have hread := (read_decPixels (channels_of_valid (valid_of_pixel hcount)) (pixelCount r) s k).trans (if_pos hk)
  simp [operationWork_dec hd, decWork, decResult, State.readUf, ← pixelCount_dec hd, hread]

theorem readPb_operationWork_enc {r : Running} (hd : decode r.cmd = .ok .enc) (s : State) {k : Nat}
    (hk : k < elementsPb r) :
    (operationWork r s).readPb k = packedComponent (encodeAt s (channels r * (k / 4))) (k % 4) := by
  have hread := (read_encPixels (channels r) (pixelCount r) s k).trans (if_pos hk)
  simp [operationWork_enc hd, encWork, encResult, State.readPb, ← pixelCount_enc hd, hread]

/-! ### Two runs that agree on what the operation reads -/

theorem decCount_congr {r₁ r₂ : Running} (hch : r₁.ch = r₂.ch) (hlen : r₁.len = r₂.len) :
    decCount r₁ = decCount r₂ := by
  unfold decCount validChannels
  rw [hch, hlen]

theorem encCount_congr {r₁ r₂ : Running} (hch : r₁.ch = r₂.ch) (hlen : r₁.len = r₂.len) :
    encCount r₁ = encCount r₂ := by
  unfold encCount validChannels channels
  rw [hch, hlen]

theorem channels_congr {r₁ r₂ : Running} (hch : r₁.ch = r₂.ch) : channels r₁ = channels r₂ := by
  simp only [channels, hch]

section
variable {i : Instr} {r₁ r₂ : Running} {s₁ s₂ : State}

theorem y0_operationWork_congr (h₁ : decode r₁.cmd = .ok i) (h₂ : decode r₂.cmd = .ok i)
    (hi : i = .bfx ∨ i = .bfi ∨ i = .fxs ∨ i = .fxe) (ha : r₁.a = r₂.a)
    (hbfi : i = .bfi → insertedExponent r₁ = insertedExponent r₂) (hfxs : i = .fxs → r₁.b = r₂.b) :
    (operationWork r₁ s₁).y0 = (operationWork r₂ s₂).y0 := by
  rcases hi with rfl | rfl | rfl | rfl
  · simp [operationWork_bfx h₁, operationWork_bfx h₂, bfxWork, ha]
  · simp [operationWork_bfi h₁, operationWork_bfi h₂, bfiWork, ha, hbfi]
  · simp [operationWork_fxs h₁, operationWork_fxs h₂, fxsWork, powerOfTwo, ha, hfxs]
  · simp [operationWork_fxe h₁, operationWork_fxe h₂, fxeWork, ha]

theorem y1_operationWork_congr (h₁ : decode r₁.cmd = .ok i) (h₂ : decode r₂.cmd = .ok i)
    (hi : i = .bfx ∨ i = .fxe) (ha : r₁.a = r₂.a) :
    (operationWork r₁ s₁).y1 = (operationWork r₂ s₂).y1 := by
  rcases hi with rfl | rfl
  · simp [operationWork_bfx h₁, operationWork_bfx h₂, bfxWork, ha]
  · simp [operationWork_fxe h₁, operationWork_fxe h₂, fxeWork, ha]

theorem cnt_operationWork_congr (h₁ : decode r₁.cmd = .ok i) (h₂ : decode r₂.cmd = .ok i)
    (hi : i = .dec ∨ i = .enc) (hch : r₁.ch = r₂.ch) (hlen : r₁.len = r₂.len) :
    (operationWork r₁ s₁).cnt = (operationWork r₂ s₂).cnt := by
  rcases hi with rfl | rfl
  · simp [operationWork_dec h₁, operationWork_dec h₂, decWork, decResult, decCount_congr hch hlen,
      channels_congr hch]
  · simp [operationWork_enc h₁, operationWork_enc h₂, encWork, encResult, encCount_congr hch hlen]

theorem readUf_operationWork_congr (h₁ : decode r₁.cmd = .ok .dec) (h₂ : decode r₂.cmd = .ok .dec)
    (hch : r₁.ch = r₂.ch) (hlen : r₁.len = r₂.len)
    (hsource : ∀ k, k < elementsPb r₁ → s₁.readPb k = s₂.readPb k) {k : Nat} (hk : k < elementsUf r₁) :
    (operationWork r₁ s₁).readUf k = (operationWork r₂ s₂).readUf k := by
  have hcount : pixelCount r₁ = pixelCount r₂ := by
    rw [pixelCount_dec h₁, pixelCount_dec h₂, decCount_congr hch hlen]
  have hk₂ : k < elementsUf r₂ := by rwa [elementsUf, ← channels_congr hch, ← hcount]
  have hpixel : k / channels r₁ < pixelCount r₁ := Nat.div_lt_of_lt_mul hk
  rw [readUf_operationWork_dec h₁ _ hk, readUf_operationWork_dec h₂ _ hk₂, ← channels_congr hch,
    packedAt_of_readPb hsource hpixel]

theorem readPb_operationWork_congr (h₁ : decode r₁.cmd = .ok .enc) (h₂ : decode r₂.cmd = .ok .enc)
    (hch : r₁.ch = r₂.ch) (hlen : r₁.len = r₂.len)
    (hsource : ∀ k, k < elementsUf r₁ → s₁.readUf k = s₂.readUf k) {k : Nat} (hk : k < elementsPb r₁) :
    (operationWork r₁ s₁).readPb k = (operationWork r₂ s₂).readPb k := by
  have hcount : pixelCount r₁ = pixelCount r₂ := by
    rw [pixelCount_enc h₁, pixelCount_enc h₂, encCount_congr hch hlen]
  have hk₂ : k < elementsPb r₂ := by rwa [elementsPb, ← hcount]
  have hpixel : k / 4 < pixelCount r₁ := Nat.div_lt_of_lt_mul hk
  have hvalid := channels_of_valid (valid_of_pixel (Nat.ne_zero_of_lt hpixel))
  rw [readPb_operationWork_enc h₁ _ hk, readPb_operationWork_enc h₂ _ hk₂, ← channels_congr hch,
    encodeAt_of_readUf hvalid hsource hpixel]

end

end Sys2Proof.Machine
end

section
/-! What the host may do while an operation runs, its buffer accesses and the reset event (R32, R42, R65). -/

namespace Sys2Proof.Machine

/-- While an operation runs, all that is left to the host is a read of `STATUS`, a turn of the codec and
a reset (R32). -/
theorem perform_of_busy {x : HostAction} {s : State} (hb : s.busy = true) (hread : x ≠ .read .status)
    (hcodec : x ≠ .codec) (hreset : x ≠ .reset) : perform x s = .refused .hostActsWhileBusy := by
  cases x with
  | write g v => simp [perform, hostWrite, hb]
  | read g =>
    have hg : g ≠ .status := fun h => hread (h ▸ rfl)
    simp [perform, hostRead, hb, hg]
  | command w => simp [perform, runCommand_eq_operate, operate, issue, hb]
  | codec => exact absurd rfl hcodec
  | writePb i v => simp [perform, hostWritePb, hb]
  | readPb i => simp [perform, hostReadPb, hb]
  | writeUf j v => simp [perform, hostWriteUf, hb]
  | readUf j => simp [perform, hostReadUf, hb]
  | reset => exact absurd rfl hreset

/-! ### Buffer accesses -/

section
variable {s : State} (hb : s.busy = false)
include hb

theorem hostWritePb_of_idle (i : Nat) (v : Byte) : hostWritePb i v s =
    if i < s.pbSize.val then .next (s.writePb i v) else .refused .outsideBuffer := by
  simp [hostWritePb, hb]

theorem hostReadPb_of_idle (i : Nat) : hostReadPb i s =
    if i < s.pbSize.val then .next (s.setRdata ((s.readPb i).setWidth 64)) else .refused .outsideBuffer := by
  simp [hostReadPb, hb]

theorem hostWriteUf_of_idle (j : Nat) (v : Word) : hostWriteUf j v s =
    if j < s.ufSize.val then .next (s.writeUf j v) else .refused .outsideBuffer := by
  simp [hostWriteUf, hb]

theorem hostReadUf_of_idle (j : Nat) : hostReadUf j s =
    if j < s.ufSize.val then .next (s.setRdata ((s.readUf j).setWidth 64)) else .refused .outsideBuffer := by
  simp [hostReadUf, hb]

end

/-! ### Reset -/

theorem readReg_reset (g : Reg) : readReg g State.reset = 0 := by
  cases g <;> decide

@[simp] theorem readReg_resetEvent (g : Reg) (s : State) : readReg g (resetEvent s) = 0 :=
  calc readReg g (resetEvent s) = readReg g State.reset := by cases g <;> rfl
    _ = 0 := readReg_reset g

theorem resetMemory_of_idle {s : State} (h : s.running = none) : resetMemory s = s := by
  simp only [resetMemory, h]

theorem resetMemory_of_running {s : State} {r : Running} (h : s.running = some r) :
    resetMemory s = (abandon r s).setDraws (s.draws + 1) := by
  simp only [resetMemory, h]

/-- A reset keeps every `PB` element outside the destination of the operation it abandons (U10). -/
theorem readPb_resetEvent {s : State} {r : Running} (h : s.running = some r) {i : Nat}
    (hi : decode r.cmd = .ok .enc → elementsPb r ≤ i) : (resetEvent s).readPb i = s.readPb i := by
  simp only [State.readPb, resetEvent, resetMemory_of_running h, State.setDraws_pb, abandon_pb]
  split
  · rename_i hd
    rw [Memory.read_fill, if_neg (Nat.not_lt.mpr (hi hd))]
  · rfl

/-- And every `UF` element outside it. -/
theorem readUf_resetEvent {s : State} {r : Running} (h : s.running = some r) {j : Nat}
    (hj : decode r.cmd = .ok .dec → elementsUf r ≤ j) : (resetEvent s).readUf j = s.readUf j := by
  simp only [State.readUf, resetEvent, resetMemory_of_running h, State.setDraws_uf, abandon_uf]
  split
  · rename_i hd
    rw [Memory.read_fill, if_neg (Nat.not_lt.mpr (hj hd))]
  · rfl

end Sys2Proof.Machine
end

section
/-! The statements about the state: the invariant, progress, the host's interface and reset. -/

namespace Sys2Proof.Settled
open Sys2Proof.Machine

/-- Settles O48, over everything a host action or a turn of the codec can do. -/
theorem stepKeepsInv : Obligations.StepKeepsInv := by
  unfold Obligations.StepKeepsInv
  intro s t h hstep
  cases hin : s.inputs with
  | nil =>
    rw [step_nil hin] at hstep
    cases hstep
    exact inv_codecStep h
  | cons x rest =>
    rw [step_cons hin] at hstep
    have hrest : Inv (s.setInputs rest) := h
    exact inv_of_result hrest (perform_result hstep)

/-- Settles O6: every word, a reserved one included, runs as one whole operation. -/
theorem everyCommandCompletes : Obligations.EveryCommandCompletes := by
  unfold Obligations.EveryCommandCompletes
  intro s rest w hin hb hs
  exact ⟨_, (step_cons hin).trans (runCommand_of_ready (s := s.setInputs rest) hb hs), rfl, rfl, by simp⟩

/-- Settles O43, one agreement for each result register and each destination space. -/
theorem resultsDependOnOperandsAlone : Obligations.ResultsDependOnOperandsAlone := by
  unfold Obligations.ResultsDependOnOperandsAlone
  intro i s₁ s₂ hb₁ hb₂ hs₁ hs₂ ha hbfi hfxs hchlen hpb huf
  have hd₁ : decode (sample (encode i) s₁).cmd = .ok i := decode_encode i
  have hd₂ : decode (sample (encode i) s₂).cmd = .ok i := decode_encode i
  refine ⟨_, _, exec_of_ready hb₁ hs₁, exec_of_ready hb₂ hs₂, rfl, fun hi => ?_, fun hi => ?_,
    fun hi => ?_, ?_, ?_⟩
  · exact y0_operationWork_congr hd₁ hd₂ hi (ha hi) hbfi hfxs
  · exact y1_operationWork_congr hd₁ hd₂ hi (ha (hi.imp_right fun h => .inr (.inr h)))
  · obtain ⟨hch, hlen⟩ := hchlen hi
    exact cnt_operationWork_congr hd₁ hd₂ hi hch hlen
  · rintro rfl k hk
    obtain ⟨hch, hlen⟩ := hchlen (.inl rfl)
    rw [readUf_finish, readUf_finish]
    exact readUf_operationWork_congr (s₁ := begin _ s₁) (s₂ := begin _ s₂) hd₁ hd₂ hch hlen (hpb rfl) hk
  · rintro rfl k hk
    obtain ⟨hch, hlen⟩ := hchlen (.inr rfl)
    rw [readPb_finish, readPb_finish]
    exact readPb_operationWork_congr (s₁ := begin _ s₁) (s₂ := begin _ s₂) hd₁ hd₂ hch hlen (huf rfl) hk

/-- Settles O45: of all that an action can do, only the issue step sets an operation in progress. -/
theorem onlyCommandWriteStarts : Obligations.OnlyCommandWriteStarts := by
  unfold Obligations.OnlyCommandWriteStarts
  intro s t hstep hidle hrun
  cases hin : s.inputs with
  | nil =>
    rw [step_nil hin, codecStep_idle hidle] at hstep
    cases hstep
    exact absurd hidle hrun
  | cons x rest =>
    rw [step_cons hin] at hstep
    cases perform_result hstep with
    | issue v => exact ⟨v, rest, rfl⟩
    | writeReg g v =>
      obtain ⟨a, b, ch, len, hframe⟩ := writeReg_frame g v (s.setInputs rest)
      rw [hframe] at hrun
      exact absurd hidle hrun
    | readReg | writePb | readPb | writeUf | readUf => exact absurd hidle hrun
    | command | reset => exact absurd rfl hrun
    | codec =>
      have hidle' : (s.setInputs rest).running = none := hidle
      rw [codecStep_idle hidle'] at hrun
      exact absurd hidle hrun

/-- Settles O46: `PIX` counts the codec's steps, and the invariant says that `BUSY` follows. -/
theorem operationCompletesInBoundedSteps : Obligations.OperationCompletesInBoundedSteps := by
  unfold Obligations.OperationCompletesInBoundedSteps
  intro s r hinv hr hin
  constructor
  · intro n hn
    have hrun := iterate_codecStep_running hr hn
    obtain ⟨_, hbusy, _⟩ := inv_iterate_codecStep hinv n
    exact ⟨_, run_of_no_inputs n hin, by rw [hbusy, hrun]; rfl, hrun⟩
  · have hrun := iterate_codecStep_running hr (Nat.le_refl _)
    have hall : pixelCount r ≤ r.pix + (pixelCount r - r.pix) := by omega
    have hlast := (Function.iterate_succ_apply' codecStep _ s).trans (codecStep_complete hrun hall)
    exact ⟨_, run_of_no_inputs _ hin, by rw [hlast]; rfl, by rw [hlast]; rfl⟩

/-- Settles O52. -/
theorem resetDuringOperation : Obligations.ResetDuringOperation := by
  unfold Obligations.ResetDuringOperation
  intro s rest r hin hr
  have hr' : (s.setInputs rest).running = some r := hr
  exact ⟨_, step_cons hin, fun g => readReg_resetEvent g _, rfl, rfl, rfl, rfl,
    fun i hi => readPb_resetEvent hr' hi, fun j hj => readUf_resetEvent hr' hj⟩

/-- Settles O4. -/
theorem stepRunsDecodedCommand : Obligations.StepRunsDecodedCommand := by
  unfold Obligations.StepRunsDecodedCommand
  intro s rest w i hin hd
  rw [step_cons hin]
  simp only [perform, runCommand, hd]
  rfl

/-- Settles O44. -/
theorem issueSamplesOperands : Obligations.IssueSamplesOperands := by
  unfold Obligations.IssueSamplesOperands
  intro s rest v hin hb hs
  have hs' : sizesSuffice (sample (v.setWidth 32) (s.setInputs rest)) (s.setInputs rest) = true := hs
  rw [step_cons hin]
  simp only [perform, hostWrite, issue, busy_setInputs, hb, hs']
  rfl

/-- Settles O49. -/
theorem resetMeetsInv : Obligations.ResetMeetsInv := by
  unfold Obligations.ResetMeetsInv
  exact inv_of_idle (.inl rfl) rfl
    ⟨⟨reset_memory_wf.1, by simp [State.reset]⟩, reset_memory_wf.2, by simp [State.reset]⟩

/-- Settles O50. -/
theorem resetRegistersReadZero : Obligations.ResetRegistersReadZero := by
  unfold Obligations.ResetRegistersReadZero
  exact ⟨readReg_reset, by decide, by decide, rfl, rfl, rfl⟩

/-- Settles O51. -/
theorem resetWhileIdle : Obligations.ResetWhileIdle := by
  unfold Obligations.ResetWhileIdle
  intro s rest hin hr
  have hr' : (s.setInputs rest).running = none := hr
  rw [step_cons hin]
  simp only [perform, resetEvent, resetMemory_of_idle hr']
  rfl

/-- Settles O53. -/
theorem hostRegisterWrite : Obligations.HostRegisterWrite := by
  unfold Obligations.HostRegisterWrite
  intro s rest g v hin hb hg
  refine ⟨_, (step_cons hin).trans (hostWrite_of_idle hg v hb), ?_, fun g' h => ?_, ?_⟩
  · cases g <;> rfl
  · exact (readReg_writeReg_other h v _).trans (readReg_setInputs g' s rest)
  · obtain ⟨a, b, ch, len, hframe⟩ := writeReg_frame g v (s.setInputs rest)
    rw [hframe]
    exact ⟨rfl, rfl, rfl, rfl⟩

/-- Settles O54. -/
theorem hostRegisterRead : Obligations.HostRegisterRead := by
  unfold Obligations.HostRegisterRead
  intro s rest g hin hallowed
  refine ⟨(step_cons hin).trans ((hostRead_of_allowed (s := s.setInputs rest) hallowed).trans ?_), rfl⟩
  rw [readReg_setInputs]
  rfl

/-- Settles O55. -/
theorem busyHostRefused : Obligations.BusyHostRefused := by
  unfold Obligations.BusyHostRefused
  intro s x rest hin hb hread hcodec hreset
  exact (step_cons hin).trans (perform_of_busy hb hread hcodec hreset)

/-- Settles O56: a write and a read of each space within its size, then each of them outside it. -/
theorem hostBufferAccess : Obligations.HostBufferAccess := by
  unfold Obligations.HostBufferAccess
  intro s rest i hb
  have hb' : (s.setInputs rest).busy = false := hb
  refine ⟨fun v hin hi => ?_, fun v hin hi => ?_, fun hin hi => ?_, fun hin hi => ?_,
    fun v hin hi => ?_, fun v hin hi => ?_, fun hin hi => ?_, fun hin hi => ?_⟩
  · exact ⟨_, (step_cons hin).trans ((hostWritePb_of_idle hb' i v).trans (if_pos hi)),
      readPb_writePb_same _ i v, fun k hk => readPb_writePb_other _ v hk, rfl⟩
  · exact ⟨_, (step_cons hin).trans ((hostWriteUf_of_idle hb' i v).trans (if_pos hi)),
      readUf_writeUf_same _ i v, fun k hk => readUf_writeUf_other _ v hk, rfl⟩
  · exact (step_cons hin).trans ((hostReadPb_of_idle hb' i).trans (if_pos hi))
  · exact (step_cons hin).trans ((hostReadUf_of_idle hb' i).trans (if_pos hi))
  · exact (step_cons hin).trans ((hostWritePb_of_idle hb' i v).trans (if_neg (Nat.not_lt.mpr hi)))
  · exact (step_cons hin).trans ((hostWriteUf_of_idle hb' i v).trans (if_neg (Nat.not_lt.mpr hi)))
  · exact (step_cons hin).trans ((hostReadPb_of_idle hb' i).trans (if_neg (Nat.not_lt.mpr hi)))
  · exact (step_cons hin).trans ((hostReadUf_of_idle hb' i).trans (if_neg (Nat.not_lt.mpr hi)))

end Sys2Proof.Settled
end

section
/-! Element by element: which writes to its source an operation does not see, and what processing pixels
in any order leaves (R54, R56, R64, R146, R168). -/

namespace Sys2Proof.Machine

/-! ### A write beyond what `DEC` reads (R54, R146) -/

/-- A store to `UF` and a write to `PB` are independent. -/
theorem storeUnpacked_writePb (ch base : Nat) (q : UnpackedPixel) (s : State) (i : Nat) (v : Byte) :
    storeUnpacked ch base q (s.writePb i v) = (storeUnpacked ch base q s).writePb i v := by
  unfold storeUnpacked
  simp only
  split <;> rfl

theorem packedAt_writePb {p i : Nat} (hi : 4 * (p + 1) ≤ i) (s : State) (v : Byte) :
    packedAt (s.writePb i v) p = packedAt s p :=
  packedAt_of_readPb (n := p + 1) (fun _ hk => readPb_writePb_other s v (by omega)) (Nat.lt_succ_self p)

theorem decPixel_writePb (ch : Nat) {p i : Nat} (hi : 4 * (p + 1) ≤ i) (s : State) (v : Byte) :
    decPixel ch p (s.writePb i v) = (decPixel ch p s).writePb i v := by
  rw [decPixel, packedAt_writePb hi, storeUnpacked_writePb]
  rfl

theorem decPixels_writePb (ch : Nat) {n i : Nat} (hi : 4 * n ≤ i) (s : State) (v : Byte) :
    decPixels ch n (s.writePb i v) = (decPixels ch n s).writePb i v := by
  induction n with
  | zero => rfl
  | succ n ih => simp only [decPixels, ih (by omega), decPixel_writePb ch hi]

/-! ### A write that `ENC` does not read (R54, R167, R168) -/

theorem encPixel_writeUf {ch p j : Nat} (hj : ∀ k < 3, ch * p + k ≠ j) (s : State) (v : Word) :
    encPixel ch p (s.writeUf j v) = (encPixel ch p s).writeUf j v := by
  have hread : ∀ k < 3, (s.writeUf j v).readUf (ch * p + k) = s.readUf (ch * p + k) :=
    fun k hk => readUf_writeUf_other s v (hj k hk)
  have hpixel : encodeAt (s.writeUf j v) (ch * p) = encodeAt s (ch * p) := by
    have hred : (s.writeUf j v).readUf (ch * p) = s.readUf (ch * p) := hread 0 (by decide)
    rw [encodeAt, hred, hread 1 (by decide), hread 2 (by decide), encodeAt]
  rw [encPixel, hpixel]
  rfl

theorem encPixels_writeUf {ch n j : Nat} (hj : ∀ p < n, ∀ k < 3, ch * p + k ≠ j) (s : State) (v : Word) :
    encPixels ch n (s.writeUf j v) = (encPixels ch n s).writeUf j v := by
  induction n with
  | zero => rfl
  | succ n ih =>
    simp only [encPixels, ih fun p hp => hj p (by omega), encPixel_writeUf (hj n (Nat.lt_succ_self n))]

/-- The colour components of the first `n` pixels are not beyond these pixels. -/
theorem component_ne_of_trailing {ch n p k j : Nat} (hch : ch = 3 ∨ ch = 4) (hj : ch * n ≤ j) (hp : p < n)
    (hk : k < 3) : ch * p + k ≠ j := by
  have hin : ch * p + ch ≤ ch * n :=
    calc ch * p + ch = ch * (p + 1) := (Nat.mul_succ ch p).symm
      _ ≤ ch * n := Nat.mul_le_mul_left ch hp
  omega

/-! ### Such a write before a whole operation, or after it -/

theorem finish_operationWork_dec_writePb {r : Running} {i : Nat} (hd : decode r.cmd = .ok .dec)
    (hi : elementsPb r ≤ i) (s : State) (v : Byte) :
    finish (operationWork r (s.writePb i v)) = (finish (operationWork r s)).writePb i v := by
  have hi' : 4 * decCount r ≤ i := by rwa [elementsPb, pixelCount_dec hd] at hi
  simp only [operationWork_dec hd, decWork, decPixels_writePb _ hi']
  rfl

theorem finish_operationWork_enc_writeUf {r : Running} {j : Nat} (hd : decode r.cmd = .ok .enc)
    (hj : ∀ p < pixelCount r, ∀ k < 3, channels r * p + k ≠ j) (s : State) (v : Word) :
    finish (operationWork r (s.writeUf j v)) = (finish (operationWork r s)).writeUf j v := by
  rw [pixelCount_enc hd] at hj
  simp only [operationWork_enc hd, encWork, encPixels_writeUf hj]
  rfl

/-! ### Pixels in any order (R64) -/

/-- What one iteration of `DEC` leaves at every index of `UF`. -/
theorem read_decPixel {ch : Nat} (hch : ch = 3 ∨ ch = 4) (p : Nat) (s : State) (j : Nat) :
    (decPixel ch p s).uf.read j =
      if j / ch = p then some (unpackedComponent (decPx (packedAt s p)) (j % ch)) else s.uf.read j := by
  have hsplit := Nat.div_add_mod j ch
  have hin : ch * p ≤ j ∧ j < ch * p + ch ↔ j / ch = p := by
    rw [Nat.div_eq_iff (by omega), Nat.mul_comm p ch]
    omega
  rw [decPixel, read_storeUnpacked hch]
  simp only [hin]
  split
  · rename_i hp
    rw [hp] at hsplit
    rw [show j - ch * p = j % ch by omega]
  · rfl

/-- What one iteration of `ENC` leaves at every index of `PB`. -/
theorem read_encPixel (ch p : Nat) (s : State) (i : Nat) :
    (encPixel ch p s).pb.read i =
      if i / 4 = p then some (packedComponent (encodeAt s (ch * p)) (i % 4)) else s.pb.read i := by
  have hin : 4 * p ≤ i ∧ i < 4 * p + 4 ↔ i / 4 = p := by omega
  rw [encPixel, read_storePacked]
  simp only [hin]
  split
  · rw [show i - 4 * p = i % 4 by omega]
  · rfl

/-- What processing any list of pixels leaves at every index of `UF`: it matters only which pixels are
in the list, since every pixel writes elements of its own and reads the source alone. -/
theorem read_foldl_decPixel {ch : Nat} (hch : ch = 3 ∨ ch = 4) (order : List Nat) (s : State) (j : Nat) :
    (order.foldl (fun u p => decPixel ch p u) s).uf.read j =
      if j / ch ∈ order then some (unpackedComponent (decPx (packedAt s (j / ch))) (j % ch))
      else s.uf.read j := by
  induction order generalizing s with
  | nil => simp
  | cons p order ih =>
    have hpb : (decPixel ch p s).pb = s.pb := by rw [decPixel_eq]; rfl
    rw [List.foldl_cons, ih, read_decPixel hch, packedAt_congr hpb]
    by_cases hmem : j / ch ∈ order
    · simp [hmem]
    · by_cases hp : j / ch = p <;> simp [hmem, hp]

theorem read_foldl_encPixel (ch : Nat) (order : List Nat) (s : State) (i : Nat) :
    (order.foldl (fun u p => encPixel ch p u) s).pb.read i =
      if i / 4 ∈ order then some (packedComponent (encodeAt s (ch * (i / 4))) (i % 4))
      else s.pb.read i := by
  induction order generalizing s with
  | nil => simp
  | cons p order ih =>
    have huf : (encPixel ch p s).uf = s.uf := rfl
    rw [List.foldl_cons, ih, read_encPixel, encodeAt_congr huf]
    by_cases hmem : i / 4 ∈ order
    · simp [hmem]
    · by_cases hp : i / 4 = p <;> simp [hmem, hp]

theorem foldl_decPixel_wf (ch : Nat) (order : List Nat) {s : State} (h : s.uf.wf) :
    (order.foldl (fun u p => decPixel ch p u) s).uf.wf := by
  induction order generalizing s with
  | nil => exact h
  | cons p order ih => exact ih (storeUnpacked_wf _ _ _ h)

theorem foldl_encPixel_wf (ch : Nat) (order : List Nat) {s : State} (h : s.pb.wf) :
    (order.foldl (fun u p => encPixel ch p u) s).pb.wf := by
  induction order generalizing s with
  | nil => exact h
  | cons p order ih => exact ih (storePacked_wf _ _ h)

/-- The loop of `DEC` is the ascending order of reference. -/
theorem decPixels_eq_foldl (ch n : Nat) (s : State) :
    decPixels ch n s = (List.range n).foldl (fun u p => decPixel ch p u) s := by
  induction n with
  | zero => rfl
  | succ n ih => simp [decPixels, List.range_succ, ih]

theorem encPixels_eq_foldl (ch n : Nat) (s : State) :
    encPixels ch n s = (List.range n).foldl (fun u p => encPixel ch p u) s := by
  induction n with
  | zero => rfl
  | succ n ih => simp [encPixels, List.range_succ, ih]

section
variable {s t : State} {order order' : List Nat} (hmem : ∀ p, p ∈ order ↔ p ∈ order')
include hmem

/-- Two lists of the same pixels, in any order and with any repetition, leave the same `UF` as data. -/
theorem foldl_decPixel_uf_congr {ch : Nat} (hch : ch = 3 ∨ ch = 4) (hwf : s.uf.wf) (hpb : s.pb = t.pb)
    (huf : s.uf = t.uf) : (order.foldl (fun u p => decPixel ch p u) s).uf =
      (order'.foldl (fun u p => decPixel ch p u) t).uf := by
  refine Memory.ext_of_wf (foldl_decPixel_wf ch order hwf) (foldl_decPixel_wf ch order' (huf ▸ hwf)) fun j => ?_
  simp only [read_foldl_decPixel hch, hmem, packedAt_congr hpb, huf]

/-- And so for `PB`. -/
theorem foldl_encPixel_pb_congr (ch : Nat) (hwf : s.pb.wf) (hpb : s.pb = t.pb) (huf : s.uf = t.uf) :
    (order.foldl (fun u p => encPixel ch p u) s).pb = (order'.foldl (fun u p => encPixel ch p u) t).pb := by
  refine Memory.ext_of_wf (foldl_encPixel_wf ch order hwf) (foldl_encPixel_wf ch order' (hpb ▸ hwf)) fun i => ?_
  simp only [read_foldl_encPixel, hmem, encodeAt_congr huf, hpb]

end

/-- The loop of `DEC` and any order of its pixels. -/
theorem decPixels_uf_of_perm {r : Running} {s t : State} {order : List Nat}
    (hperm : order.Perm (List.range (decCount r))) (hwf : s.uf.wf) (hpb : s.pb = t.pb) (huf : s.uf = t.uf) :
    (decPixels (channels r) (decCount r) s).uf =
      (order.foldl (fun u p => decPixel (channels r) p u) t).uf := by
  rw [decPixels_eq_foldl]
  by_cases hvalid : validChannels r = true
  · exact foldl_decPixel_uf_congr (fun _ => hperm.mem_iff.symm) (channels_of_valid hvalid) hwf hpb huf
  · have hcount : decCount r = 0 := if_neg hvalid
    rw [hcount] at hperm ⊢
    rw [hperm.eq_nil]
    exact huf

theorem encPixels_pb_of_perm {r : Running} {s t : State} {order : List Nat}
    (hperm : order.Perm (List.range (encCount r))) (hwf : s.pb.wf) (hpb : s.pb = t.pb) (huf : s.uf = t.uf) :
    (encPixels (channels r) (encCount r) s).pb =
      (order.foldl (fun u p => encPixel (channels r) p u) t).pb := by
  rw [encPixels_eq_foldl]
  exact foldl_encPixel_pb_congr (fun _ => hperm.mem_iff.symm) _ hwf hpb huf

/-! ### The loops a second time (R56) -/

theorem decPixels_again {ch : Nat} (hch : ch = 3 ∨ ch = 4) (n : Nat) {s : State} (hwf : s.uf.wf) :
    decPixels ch n (decPixels ch n s) = decPixels ch n s := by
  have huf : (decPixels ch n (decPixels ch n s)).uf = (decPixels ch n s).uf := by
    simp only [decPixels_eq_foldl, ← List.foldl_append]
    exact foldl_decPixel_uf_congr (by simp) hch hwf rfl rfl
  rw [decPixels_eq ch n (decPixels ch n s), huf]
  rfl

theorem encPixels_again (ch n : Nat) {s : State} (hwf : s.pb.wf) :
    encPixels ch n (encPixels ch n s) = encPixels ch n s := by
  have hpb : (encPixels ch n (encPixels ch n s)).pb = (encPixels ch n s).pb := by
    simp only [encPixels_eq_foldl, ← List.foldl_append]
    exact foldl_encPixel_pb_congr (by simp) ch hwf rfl rfl
  rw [encPixels_eq ch n (encPixels ch n s), hpb]
  rfl

/-- Processing all pixels of an operation a second time changes nothing. -/
theorem pixelRun_again (r : Running) {s : State} (hpb : s.pb.wf) (huf : s.uf.wf) :
    pixelRun r (pixelCount r) (pixelRun r (pixelCount r) s) = pixelRun r (pixelCount r) s := by
  by_cases hcount : pixelCount r = 0
  · rw [hcount]; rfl
  by_cases hd : decode r.cmd = .ok .dec
  · simp only [pixelRun_dec hd]
    exact decPixels_again (channels_of_valid (valid_of_pixel hcount)) _ huf
  by_cases he : decode r.cmd = .ok .enc
  · simp only [pixelRun_enc he]
    exact encPixels_again _ _ hpb
  · exact absurd (pixelCount_other hd he) hcount

end Sys2Proof.Machine
end

section
/-! The pixels of an operation see and touch the two spaces alone, so the codec's own steps, whatever the
host's list holds, come to the operation as one transition (R34, R54, R65). -/

namespace Sys2Proof.Machine

/-! ### Changes of the state that have nothing to do with the spaces -/

/-- `g` neither reads nor changes `PB` and `UF`. -/
def ApartFromSpaces (g : State → State) : Prop :=
  ∀ s m u, g ((s.setPb m).setUf u) = ((g s).setPb m).setUf u

theorem ApartFromSpaces.pb {g : State → State} (h : ApartFromSpaces g) (s : State) : (g s).pb = s.pb :=
  congrArg (fun t => t.pb) (h s s.pb s.uf)

theorem ApartFromSpaces.uf {g : State → State} (h : ApartFromSpaces g) (s : State) : (g s).uf = s.uf :=
  congrArg (fun t => t.uf) (h s s.pb s.uf)

theorem apartFromSpaces_setRunning (x : Option Running) : ApartFromSpaces (·.setRunning x) :=
  fun _ _ _ => rfl

theorem apartFromSpaces_setInputs (l : List HostAction) : ApartFromSpaces (·.setInputs l) :=
  fun _ _ _ => rfl

theorem apartFromSpaces_resultWork (r : Running) : ApartFromSpaces (resultWork r) := by
  intro s m u
  unfold resultWork
  split <;> rfl

/-- Completing an operation and issuing the next one. -/
theorem apartFromSpaces_reissue (r : Running) (w : Word) :
    ApartFromSpaces fun s => begin w (finish (resultWork r s)) := by
  intro s m u
  simp only [apartFromSpaces_resultWork r s m u]
  rfl

/-! ### A pixel step and the pixels of an operation -/

theorem pixelWork_eq (r : Running) (s : State) :
    pixelWork r s = (s.setPb (pixelWork r s).pb).setUf (pixelWork r s).uf := by
  obtain ⟨m, u, h⟩ := pixelWork_frame r s
  rw [h]; rfl

/-- What a pixel step leaves in the spaces depends on the spaces alone. -/
theorem pixelWork_spaces_congr (r : Running) {s t : State} (hpb : s.pb = t.pb) (huf : s.uf = t.uf) :
    (pixelWork r s).pb = (pixelWork r t).pb ∧ (pixelWork r s).uf = (pixelWork r t).uf := by
  have hdec : ∀ ch p, (decPixel ch p s).pb = (decPixel ch p t).pb ∧
      (decPixel ch p s).uf = (decPixel ch p t).uf := fun ch p => by
    constructor
    · rw [decPixel_eq, decPixel_eq ch p t]; exact hpb
    · rw [decPixel, decPixel, packedAt_congr hpb]; exact storeUnpacked_uf_congr _ _ _ huf
  have henc : ∀ ch p, (encPixel ch p s).pb = (encPixel ch p t).pb ∧
      (encPixel ch p s).uf = (encPixel ch p t).uf := fun ch p =>
    ⟨by simp [encPixel, storePacked, encodeAt_congr huf, hpb], huf⟩
  unfold pixelWork
  split
  case h_5 => exact hdec _ _
  case h_6 => exact henc _ _
  all_goals exact ⟨hpb, huf⟩

theorem pixelWork_comm {g : State → State} (hg : ApartFromSpaces g) (r : Running) (s : State) :
    pixelWork r (g s) = g (pixelWork r s) := by
  obtain ⟨hpb, huf⟩ := pixelWork_spaces_congr r (hg.pb s) (hg.uf s)
  rw [pixelWork_eq r (g s), hpb, huf, ← hg, ← pixelWork_eq]

theorem pixelRun_comm {g : State → State} (hg : ApartFromSpaces g) (r : Running) (n : Nat) (s : State) :
    pixelRun r n (g s) = g (pixelRun r n s) := by
  induction n with
  | zero => rfl
  | succ n ih => simp only [pixelRun, ih, pixelWork_comm hg]

/-! ### An operation a second time (R56) -/

/-- The result registers come from the sampled operands alone. -/
theorem finish_resultWork_again (r : Running) (w : Word) (s : State) :
    finish (resultWork r (begin w (finish (resultWork r s)))) = finish (resultWork r s) := by
  unfold resultWork
  split <;> rfl

theorem finish_operationWork_again (r : Running) (w : Word) {s : State} (hpb : s.pb.wf) (huf : s.uf.wf) :
    finish (operationWork r (begin w (finish (operationWork r s)))) = finish (operationWork r s) := by
  simp only [operationWork, pixelRun_comm (apartFromSpaces_reissue r w), pixelRun_again r hpb huf,
    finish_resultWork_again]

/-- All that an operation writes between its issue step and its completion step (R34). -/
theorem operationWork_frame (r : Running) (s : State) :
    ∃ m u y0 y1 cnt, operationWork r s = ((((s.setPb m).setUf u).setY0 y0).setY1 y1).setCnt cnt := by
  obtain ⟨m, u, hrun⟩ := pixelRun_frame r (pixelCount r) s
  obtain ⟨y0, y1, cnt, hresult⟩ := resultWork_frame r (pixelRun r (pixelCount r) s)
  exact ⟨m, u, y0, y1, cnt, by rw [operationWork, hresult, hrun]⟩

/-- An operation leaves its operands, so the next one samples the same (R31, R34). -/
theorem sample_finish_operationWork (v w : Word) (r : Running) (s : State) :
    sample v (finish (operationWork r (begin w s))) = sample v s := by
  obtain ⟨m, u, y0, y1, cnt, hframe⟩ := operationWork_frame r (begin w s)
  rw [hframe]; rfl

theorem sizesSuffice_finish_operationWork (q r : Running) (w : Word) (s : State) :
    sizesSuffice q (finish (operationWork r (begin w s))) = sizesSuffice q s := by
  obtain ⟨m, u, y0, y1, cnt, hframe⟩ := operationWork_frame r (begin w s)
  rw [hframe]; rfl

/-! ### The codec's steps of a whole operation (R33, R36, R65) -/

theorem resultWork_setInputs (r : Running) (s : State) (l : List HostAction) :
    resultWork r (s.setInputs l) = (resultWork r s).setInputs l := by
  unfold resultWork
  split <;> rfl

/-- The codec does not look at what the host does next. -/
theorem codecStep_setInputs (s : State) (l : List HostAction) :
    codecStep (s.setInputs l) = (codecStep s).setInputs l := by
  cases h : s.running with
  | none => rw [codecStep_idle h, codecStep_idle (s := s.setInputs l) h]
  | some r =>
    rcases Nat.lt_or_ge r.pix (pixelCount r) with hp | hp
    · rw [codecStep_pixel h hp, codecStep_pixel (s := s.setInputs l) h hp,
        pixelWork_comm (apartFromSpaces_setInputs l)]
      rfl
    · rw [codecStep_complete h hp, codecStep_complete (s := s.setInputs l) h hp, resultWork_setInputs]
      rfl

/-- Turns that the host leaves to the codec are the codec's own steps. -/
theorem run_of_codec_turns (n : Nat) (s : State) (rest : List HostAction) :
    Sys2Proof.core.run n (s.setInputs (List.replicate n .codec ++ rest)) =
      .next (codecStep^[n] (s.setInputs rest)) := by
  induction n generalizing s with
  | zero => rfl
  | succ n ih =>
    have hstep : Sys2Proof.core.step (s.setInputs (List.replicate (n + 1) .codec ++ rest)) =
        .next ((codecStep s).setInputs (List.replicate n .codec ++ rest)) := by
      rw [← codecStep_setInputs]
      exact step_cons (s := s.setInputs (.codec :: (List.replicate n .codec ++ rest))) rfl
    simp only [Host.Core.run, hstep]
    rw [Function.iterate_succ_apply, codecStep_setInputs]
    exact ih (codecStep s)

/-- After `n` steps from the issue step the first `n` pixels are done. -/
theorem iterate_codecStep_begin (w : Word) (s : State) {n : Nat} (hn : n ≤ pixelCount (sample w s)) :
    codecStep^[n] (begin w s) =
      (pixelRun (sample w s) n (begin w s)).setRunning (some { sample w s with pix := n }) := by
  induction n with
  | zero => rfl
  | succ n ih =>
    rw [Function.iterate_succ_apply', ih (by omega),
      codecStep_pixel (r := { sample w s with pix := n }) rfl hn, pixelWork_comm (apartFromSpaces_setRunning _)]
    rfl

/-- The completion step does not look at `PIX` and ends the operation in progress. -/
theorem finish_resultWork_setRunning (r : Running) (n : Nat) (x : Option Running) (s : State) :
    finish (resultWork { r with pix := n } (s.setRunning x)) = finish (resultWork r s) := by
  simp only [resultWork]
  split <;> rfl

/-- The pixel steps and the completion step make up the whole operation. -/
theorem iterate_codecStep_operation (w : Word) (s : State) :
    codecStep^[pixelCount (sample w s) + 1] (begin w s) =
      finish (operationWork (sample w s) (begin w s)) := by
  rw [Function.iterate_succ_apply', iterate_codecStep_begin w s (Nat.le_refl _),
    codecStep_complete (r := { sample w s with pix := pixelCount (sample w s) }) rfl (Nat.le_refl _)]
  exact finish_resultWork_setRunning _ _ _ _

/-! ### The issue step and the whole operation, refused alike -/

theorem hostWrite_cmd (v : DWord) (s : State) : hostWrite .cmd v s = issue (v.setWidth 32) s := by
  cases hb : s.busy <;> simp [hostWrite, issue, hb]

/-- What the issue step asks for does not depend on the host's list. -/
theorem issue_setInputs (w : Word) (s : State) (l : List HostAction) : issue w (s.setInputs l) =
    if s.busy then .refused .hostActsWhileBusy
    else if sizesSuffice (sample w s) s then .next ((begin w s).setInputs l)
    else .refused .bufferTooSmall := rfl

/-- A command word the host writes to `CMD` is issued as it stands. -/
theorem step_write_cmd (s : State) (w : Word) (l : List HostAction) :
    Sys2Proof.core.step { s with inputs := .write .cmd (w.setWidth 64) :: l } =
      issue w (s.setInputs l) := by
  have hword : (w.setWidth 64).setWidth 32 = w := by simp
  have hwrite : hostWrite .cmd (w.setWidth 64) (s.setInputs l) = issue w (s.setInputs l) := by
    rw [hostWrite_cmd, hword]
  exact (step_cons (s := { s with inputs := .write .cmd (w.setWidth 64) :: l }) rfl).trans hwrite

theorem exec_of_small {i : Instr} {s : State} (hb : s.busy = false)
    (hs : sizesSuffice (sample (encode i) s) s = false) : exec i s = .refused .bufferTooSmall := by
  simp [exec_eq_operate, operate, issue, hb, hs]

theorem sizesSuffice_eq_false {r : Running} {s : State}
    (h : s.pbSize.val < elementsPb r ∨ s.ufSize.val < elementsUf r) : sizesSuffice r s = false := by
  rw [Bool.eq_false_iff, Ne, sizesSuffice_iff]
  omega

/-- `N` of `DEC` at a valid channel count (R146). -/
theorem pixelCount_sample_dec {s : State} (hch : s.ch = 3 ∨ s.ch = 4) :
    pixelCount (sample (encode .dec) s) = s.len.toNat / 4 :=
  (pixelCount_dec (decode_encode .dec)).trans (if_pos ((validChannels_iff _).mpr hch))

/-- `N` of `ENC` at a valid channel count (R167). -/
theorem pixelCount_sample_enc {s : State} (hch : s.ch = 3 ∨ s.ch = 4) :
    pixelCount (sample (encode .enc) s) = s.len.toNat / s.ch.toNat :=
  (pixelCount_enc (decode_encode .enc)).trans (if_pos ((validChannels_iff _).mpr hch))

end Sys2Proof.Machine
end

section
/-! The statements about memory: atomicity, order, repetition and what an operation does not touch. -/

namespace Sys2Proof.Settled
open Sys2Proof.Machine

/-- Settles O47: the issue step is refused where the whole operation is, and otherwise the codec's turns
are its pixels and its completion. -/
theorem operationIsAtomicToHost : Obligations.OperationIsAtomicToHost := by
  unfold Obligations.OperationIsAtomicToHost
  intro s w rest
  have hcommand : step { s with inputs := .command w :: rest } = operate w operationWork (s.setInputs rest) :=
    (step_cons (s := { s with inputs := _ }) rfl).trans (runCommand_eq_operate w _)
  rw [hcommand]
  simp only [Host.Core.run, step_write_cmd, operate, issue_setInputs]
  cases hb : s.busy with
  | true => rfl
  | false =>
    cases hs : sizesSuffice (sample w s) s with
    | false => rfl
    | true =>
      exact (run_of_codec_turns _ (begin w s) rest).trans
        (congrArg Host.Outcome.next (iterate_codecStep_operation w (s.setInputs rest)))

/-- Settles O41: the loop of reference and the given order leave the same at every index. -/
theorem pixelOrderUnobservable : Obligations.PixelOrderUnobservable := by
  unfold Obligations.PixelOrderUnobservable
  intro s order hpb huf hb
  have hdec : decode (sample (encode .dec) s).cmd = .ok .dec := decode_encode .dec
  have henc : decode (sample (encode .enc) s).cmd = .ok .enc := decode_encode .enc
  refine ⟨fun hs hperm => ⟨_, exec_of_ready hb hs, ?_, ?_⟩, fun hs hperm => ⟨_, exec_of_ready hb hs, ?_, ?_⟩⟩
  · rw [finish_pb, operationWork_dec hdec, decWork, decPixels_eq]
    rfl
  · rw [finish_uf, operationWork_dec hdec]
    exact decPixels_uf_of_perm (r := sample (encode .dec) s) (s := begin _ s) hperm huf rfl rfl
  · rw [finish_uf, operationWork_enc henc, encWork, encPixels_eq]
    rfl
  · rw [finish_pb, operationWork_enc henc]
    exact encPixels_pb_of_perm (r := sample (encode .enc) s) (s := begin _ s) hperm hpb rfl rfl

/-- Settles O42: the second run samples the same operands, stores the same pixels and writes the same
result registers. -/
theorem repeatingAnOperationChangesNothing : Obligations.RepeatingAnOperationChangesNothing := by
  unfold Obligations.RepeatingAnOperationChangesNothing
  intro s i hpb huf hb hs
  refine ⟨_, exec_of_ready hb hs, ?_⟩
  rw [exec_of_ready (busy_finish _)]
  · rw [sample_finish_operationWork, finish_operationWork_again (s := begin (encode i) s) _ _ hpb huf]
  · rwa [sample_finish_operationWork, sizesSuffice_finish_operationWork]

/-- Settles O31: the write moves past every pixel of the loop. -/
theorem decodeIgnoresTrailingElements : Obligations.DecodeIgnoresTrailingElements := by
  unfold Obligations.DecodeIgnoresTrailingElements
  intro s i v hb hs hi
  have hd : decode (sample (encode .dec) s).cmd = .ok .dec := decode_encode .dec
  refine ⟨_, exec_of_ready hb hs, (exec_of_ready (s := s.writePb i v) hb hs).trans ?_⟩
  exact congrArg Host.Outcome.next (finish_operationWork_dec_writePb hd hi (begin (encode .dec) s) v)

/-- Settles O33: `4p + 3` is the alpha of pixel `p`, and what lies beyond the last pixel is in none. -/
theorem encodeIgnoresAlphaAndTrailing : Obligations.EncodeIgnoresAlphaAndTrailing := by
  unfold Obligations.EncodeIgnoresAlphaAndTrailing
  intro s j v hb hs hj
  have hd : decode (sample (encode .enc) s).cmd = .ok .enc := decode_encode .enc
  refine ⟨_, exec_of_ready hb hs, (exec_of_ready (s := s.writeUf j v) hb hs).trans ?_⟩
  refine congrArg Host.Outcome.next
    (finish_operationWork_enc_writeUf hd (fun p hp k hk => ?_) (begin (encode .enc) s) v)
  rcases hj with hj | ⟨hch, hj⟩
  · exact component_ne_of_trailing (channels_of_valid (valid_of_pixel (Nat.ne_zero_of_lt hp))) hj hp hk
  · have hfour : channels (sample (encode .enc) s) = 4 := by simp [channels, hch]
    rw [hfour]
    omega

/-- Settles O30. -/
theorem smallBufferRefused : Obligations.SmallBufferRefused := by
  unfold Obligations.SmallBufferRefused
  intro s hb hch
  refine ⟨fun hsmall => exec_of_small hb (sizesSuffice_eq_false ?_),
    fun hsmall => exec_of_small hb (sizesSuffice_eq_false ?_)⟩
  · rwa [elementsPb, elementsUf, pixelCount_sample_dec hch]
  · rwa [elementsPb, elementsUf, pixelCount_sample_enc hch]

end Sys2Proof.Settled
end

section
/-! Which command words are reserved, what the decoder answers on them, and what such a command does
(R80 to R82). -/

namespace Sys2Proof.Machine

/-! ### The words of the table (R81) -/

/-- Each row of R81 matches one word. -/
theorem decode_eq_ok_iff (w : Word) (i : Instr) : decode w = .ok i ↔ w = encode i :=
  ⟨eq_encode_of_decode, fun h => h ▸ decode_encode i⟩

/-- The mask of R81 keeps the whole word. -/
theorem and_commandMask (w : Word) : w &&& 0xFFFFFFFF = w := BitVec.and_allOnes

/-- A number that is a command word is read as that word. -/
theorem decodeTableWord_toNat (w : Word) : decodeTableWord 32 w.toNat = (decode w).toOption := by
  have hw := w.isLt
  rw [decodeTableWord, Nat.mod_eq_of_lt hw, if_pos hw, BitVec.ofNat_toNat, BitVec.setWidth_eq]

theorem decodeTableWord_encode (i : Instr) : decodeTableWord 32 (encode i).toNat = some i := by
  rw [decodeTableWord_toNat, decode_encode]
  rfl

/-! ### The reserved words (R82) -/

/-- What R82 calls reserved: an operation code of no row, or a bit of `RSV` that is 1. -/
def reservedCommand (w : Word) : Prop := opField w = 0b110 ∨ opField w = 0b111 ∨ rsvField w ≠ 0

/-- Of the eight operation codes, six are assigned. -/
theorem operationAssigned_iff (w : Word) :
    operationAssigned w = true ↔ ¬ (opField w = 0b110 ∨ opField w = 0b111) := by
  rw [operationAssigned, decide_eq_true_iff]
  bv_omega

theorem reservedBitsClear_iff (w : Word) : reservedBitsClear w = true ↔ rsvField w = 0 := beq_iff_eq

theorem commandWellFormed_iff (w : Word) : commandWellFormed w = true ↔ ¬ reservedCommand w := by
  rw [commandWellFormed, Bool.and_eq_true, reservedBitsClear_iff, operationAssigned_iff, reservedCommand]
  tauto

theorem commandWellFormed_encode (i : Instr) : commandWellFormed (encode i) = true := by
  cases i with
  | bfx => exact Laws.CommandWord.bfx.1
  | bfi => exact Laws.CommandWord.bfi.1
  | fxs => exact Laws.CommandWord.fxs.1
  | fxe => exact Laws.CommandWord.fxe.1
  | dec => exact Laws.CommandWord.dec.1
  | enc => exact Laws.CommandWord.enc.1

/-- A word with `RSV` zero and an assigned operation code has its row in R81. -/
theorem exists_decode_of_wellFormed {w : Word} (h : commandWellFormed w = true) : ∃ i, decode w = .ok i := by
  obtain ⟨hclear, hassigned⟩ := Bool.and_eq_true_iff.mp h
  have hop : (opField w).toNat < 6 := of_decide_eq_true hassigned
  rw [decode, if_pos hclear]
  interval_cases (opField w).toNat <;> exact ⟨_, rfl⟩

theorem commandWellFormed_iff_decode (w : Word) : commandWellFormed w = true ↔ ∃ i, decode w = .ok i := by
  refine ⟨exists_decode_of_wellFormed, ?_⟩
  rintro ⟨i, hd⟩
  rw [eq_encode_of_decode hd]
  exact commandWellFormed_encode i

theorem decode_error_iff_reserved (w : Word) : (∃ e, decode w = .error e) ↔ reservedCommand w := by
  rw [← not_iff_not, ← commandWellFormed_iff, commandWellFormed_iff_decode]
  cases decode w with
  | ok i => simp
  | error e => simp

theorem decodeTableWord_reserved {w : Word} (h : reservedCommand w) : decodeTableWord 32 w.toNat = none := by
  obtain ⟨e, hd⟩ := (decode_error_iff_reserved w).mpr h
  rw [decodeTableWord_toNat, hd]
  rfl

/-! ### A reserved command (R82) -/

/-- A reserved command processes no pixel, so it needs no buffer (R69). -/
theorem sizesSuffice_of_decode_error {r : Running} {e : DecodeError} (h : decode r.cmd = .error e)
    (s : State) : sizesSuffice r s = true :=
  sizesSuffice_of_no_pixel (pixelCount_other (by simp [h]) (by simp [h])) s

theorem runCommand_reserved {w : Word} {s : State} (hb : s.busy = false) (h : reservedCommand w) :
    runCommand w s = .next (finish ((begin w s).setCnt 0)) := by
  obtain ⟨e, hd⟩ := (decode_error_iff_reserved w).mpr h
  have hd' : decode (sample w s).cmd = .error e := hd
  rw [runCommand_of_ready hb (sizesSuffice_of_decode_error hd' s), operationWork_reserved hd', reservedWork]

end Sys2Proof.Machine
end

section
/-! The statements about the encoding of commands (spec/30_encoding.md). -/

namespace Sys2Proof.Settled
open Sys2Proof.Machine

/-- Settles O1: the mask keeps the whole word, and the decoder and the encoder are inverse. -/
theorem commandWordSelectsOperation : Obligations.CommandWordSelectsOperation := by
  unfold Obligations.CommandWordSelectsOperation
  refine ⟨fun w i => ?_, rfl, rfl, rfl, rfl, rfl, rfl, fun i => ?_, by decide, by decide⟩
  · rw [and_commandMask, decode_eq_ok_iff]
  · cases i <;> decide

/-- Settles O2. -/
theorem reservedWordsRejected : Obligations.ReservedWordsRejected := by
  unfold Obligations.ReservedWordsRejected
  exact fun w => ⟨decode_error_iff_reserved w, commandWellFormed_iff_decode w⟩

/-- Settles O3: the word of each row, then one reserved word per operation code of no row and one per end
of `RSV`. -/
theorem tableWordsDecode : Obligations.TableWordsDecode := by
  unfold Obligations.TableWordsDecode
  have hop6 : reservedCommand 0x00000006 := .inl (by decide)
  have hop7 : reservedCommand 0x00000007 := .inr (.inl (by decide))
  have hbit3 : reservedCommand 0x0000000C := .inr (.inr (by decide))
  have hbit31 : reservedCommand 0x80000002 := .inr (.inr (by decide))
  exact ⟨decodeTableWord_encode .bfx, decodeTableWord_encode .bfi, decodeTableWord_encode .fxs,
    decodeTableWord_encode .fxe, decodeTableWord_encode .dec, decodeTableWord_encode .enc,
    decodeTableWord_reserved hop6, decodeTableWord_reserved hop7,
    decodeTableWord_reserved hbit3, decodeTableWord_reserved hbit31⟩

/-- Settles O5: no buffer is too small for a reserved command, so an idle codec runs it. -/
theorem reservedCommandNoOp : Obligations.ReservedCommandNoOp := by
  unfold Obligations.ReservedCommandNoOp
  intro s rest w hin hb hreserved
  exact (step_cons hin).trans (runCommand_reserved (s := s.setInputs rest) hb hreserved)

end Sys2Proof.Settled
end

section
/-! The laws of `SM`, `EX` and `INS` (R110 to R112, R115), and what a scalar operation answers on an idle
codec. -/

namespace Sys2Proof.Machine

/-! ### The low byte of a word -/

/-- The mask `0xff` is the zero-extension of bits 7 to 0. -/
theorem setWidth_lowByte (w : Word) : (w.extractLsb' 0 8).setWidth 32 = w &&& 0xff := by
  apply BitVec.eq_of_toNat_eq
  have hmask : w.toNat &&& 255 = w.toNat % 256 := Nat.and_two_pow_sub_one_eq_mod w.toNat 8
  simp [hmask]
  omega

/-- `EX` is bits 7 to 0 of the shifted pattern (R111): the mask keeps all of them. -/
theorem ex_eq_lowByte (b : Word) : ex b = (b >>> 23).extractLsb' 0 8 := by
  rw [ex, BitVec.setWidth_and, BitVec.setWidth_eq_extractLsb' (by decide)]
  exact BitVec.and_allOnes

theorem setWidth_ex (b : Word) : (ex b).setWidth 32 = (b >>> 23) &&& 0xff := by
  rw [ex_eq_lowByte, setWidth_lowByte]

theorem ins_insertedExponent (r : Running) :
    ins r.a (insertedExponent r) = (r.a &&& 0x807fffff) ||| ((r.b &&& 0xff) <<< 23) := by
  rw [ins, insertedExponent, setWidth_lowByte]

/-! ### Taking a pattern apart and putting it together (R115)

A pattern is its sign, its exponent field and its fraction (`pattern_ext`): `SM` clears the exponent field
and keeps the rest, `INS` replaces it and keeps the rest. -/

theorem ins_ex (b : Word) : ins b (ex b) = b :=
  pattern_ext (signBit_ins b _) (ex_ins b _) (fracField_ins b _)

theorem sm_sm (b : Word) : sm (sm b) = sm b :=
  pattern_ext (signBit_sm _) ((ex_sm _).trans (ex_sm b).symm) (fracField_sm _)

theorem sm_ins (b : Word) (e : Byte) : sm (ins b e) = sm b := by
  apply pattern_ext
  · rw [signBit_sm, signBit_ins, signBit_sm]
  · rw [ex_sm, ex_sm]
  · rw [fracField_sm, fracField_ins, fracField_sm]

theorem ins_eq_or (b : Word) (e : Byte) : ins b e = sm b ||| (e.setWidth 32 <<< 23) := rfl

/-- The inner mask of R112 changes nothing on a part that came from `SM`. -/
theorem ins_sm (b : Word) (e : Byte) : ins (sm b) e = ins b e := by
  rw [ins_eq_or, sm_sm, ins_eq_or]

/-- An exponent field in its place has nothing left under the mask of `SM`. -/
theorem sm_exponentPart (e : Byte) : sm (e.setWidth 32 <<< 23) = 0 :=
  calc sm (e.setWidth 32 <<< 23)
    _ = sm (ins 0 e) := congrArg sm BitVec.zero_or.symm
    _ = 0 := sm_ins 0 e

/-- The two parts of `INS` share no bit. -/
theorem sm_and_exponentPart (b : Word) (e : Byte) : sm b &&& (e.setWidth 32 <<< 23) = 0 :=
  calc sm b &&& (e.setWidth 32 <<< 23)
    _ = b &&& sm (e.setWidth 32 <<< 23) := by
      rw [sm, sm, BitVec.and_assoc, BitVec.and_comm 0x807fffff]
    _ = 0 := by rw [sm_exponentPart]; exact BitVec.and_zero

/-! ### A scalar operation on an idle codec -/

/-- A scalar operation needs no buffer (R69), so an idle codec always runs it. -/
theorem exec_of_scalar {i : Instr} {s : State} (hd : i ≠ .dec) (he : i ≠ .enc) (hb : s.busy = false) :
    exec i s = .next (finish (operationWork (sample (encode i) s) (begin (encode i) s))) := by
  have hdecode : decode (sample (encode i) s).cmd = .ok i := decode_encode i
  have hpixel : pixelCount (sample (encode i) s) = 0 :=
    pixelCount_other (by simpa [hdecode] using hd) (by simpa [hdecode] using he)
  exact exec_of_ready hb (sizesSuffice_of_no_pixel hpixel s)

theorem exec_bfx_of_idle {s : State} (hb : s.busy = false) :
    exec .bfx s = .next (finish (((begin (encode .bfx) s).setY0 (s.a &&& 0x807fffff)).setY1
      ((s.a >>> 23) &&& 0xff))) := by
  rw [exec_of_scalar (by decide) (by decide) hb, operationWork_bfx (decode_encode .bfx), bfxWork, setWidth_ex]
  rfl

theorem exec_bfi_of_idle {s : State} (hb : s.busy = false) :
    exec .bfi s = .next (finish ((begin (encode .bfi) s).setY0
      ((s.a &&& 0x807fffff) ||| ((s.b &&& 0xff) <<< 23)))) := by
  rw [exec_of_scalar (by decide) (by decide) hb, operationWork_bfi (decode_encode .bfi), bfiWork,
    ins_insertedExponent]
  rfl

end Sys2Proof.Machine
end

section
/-! The statements about the bit-field unit (spec/40_bitfield.md). -/

namespace Sys2Proof.Settled
open Sys2Proof.Machine

/-- Settles O11: a pattern is determined by its three fields, and `SM` and `INS` act on the exponent field
alone. -/
theorem fieldLaws : Obligations.FieldLaws := by
  unfold Obligations.FieldLaws
  exact fun b e => ⟨(ins_sm b _).trans (ins_ex b), sm_ins b e, ex_ins b e, sm_sm b, ex_sm b,
    (ins_eq_or b _).symm.trans (ins_ex b), sm_and_exponentPart b _⟩

/-- Settles O7. -/
theorem bfxResult : Obligations.BfxResult := by
  unfold Obligations.BfxResult
  exact ⟨decode_encode .bfx, fun s hb => exec_bfx_of_idle hb⟩

/-- Settles O8. -/
theorem bfiResult : Obligations.BfiResult := by
  unfold Obligations.BfiResult
  exact ⟨decode_encode .bfi, fun s hb => exec_bfi_of_idle hb⟩

end Sys2Proof.Settled
end

section
/-! The fast exponent scaler (R120): `FXS` replaces the exponent field by its sum mod 256 with the adjustment
and keeps the sign and the fraction. -/

namespace Sys2Proof.Machine

/-! ### The low byte of the adjustment -/

/-- Of an adjustment read from a register, only bits 7 to 0 reach the exponent field (R122). -/
theorem ofInt_toInt_lowByte (w : Word) : BitVec.ofInt 8 w.toInt = w.extractLsb' 0 8 := by
  have hdvd : 2 ^ 8 ∣ 2 ^ 32 := pow_dvd_pow 2 (by decide)
  rw [← BitVec.setWidth_eq_extractLsb' (by decide), ← BitVec.toInt_inj, BitVec.toInt_ofInt,
    BitVec.toInt_setWidth, BitVec.toInt_eq_toNat_bmod, Int.bmod_bmod_of_dvd hdvd]

/-- No carry comes into the low byte from above. -/
theorem lowByte_add (v w : Word) :
    (v + w).extractLsb' 0 8 = v.extractLsb' 0 8 + w.extractLsb' 0 8 := by
  have hle : 8 ≤ 32 := by decide
  simp only [← BitVec.setWidth_eq_extractLsb' hle, BitVec.setWidth_add _ _ hle]

/-! ### The fields of a scaled pattern (R124) -/

/-- R120 with the sum taken in the 8-bit adder. -/
theorem fxs_eq_ins (b : Word) (p : Int) : fxs b p = ins b (ex b + BitVec.ofInt 8 p) := by
  rw [fxs, ins_sm, BitVec.ofInt_add, BitVec.ofInt_natCast, BitVec.ofNat_toNat, BitVec.setWidth_eq]

@[simp] theorem signBit_fxs (b : Word) (p : Int) : signBit (fxs b p) = signBit b := by
  rw [fxs_eq_ins, signBit_ins]

@[simp] theorem fracField_fxs (b : Word) (p : Int) : fracField (fxs b p) = fracField b := by
  rw [fxs_eq_ins, fracField_ins]

@[simp] theorem ex_fxs (b : Word) (p : Int) : ex (fxs b p) = ex b + BitVec.ofInt 8 p := by
  rw [fxs_eq_ins, ex_ins]

theorem ex_fxs_toNat (b : Word) (p : Int) :
    ((ex (fxs b p)).toNat : Int) = (((ex b).toNat : Int) + p) % 256 := by
  rw [fxs, ex_ins, BitVec.toNat_ofInt, Int.toNat_of_nonneg (Int.emod_nonneg _ (by norm_num))]
  norm_num

/-! ### Adding adjustments (R122) -/

/-- `FXS` sees an adjustment through its residue in 8 bits alone. -/
theorem fxs_congr (b : Word) {p q : Int} (h : BitVec.ofInt 8 p = BitVec.ofInt 8 q) : fxs b p = fxs b q := by
  rw [fxs_eq_ins, fxs_eq_ins, h]

theorem fxs_add_wrap (b : Word) (p q : Int) : fxs b (p + 256 * q) = fxs b p := by
  have hwrap : BitVec.ofInt 8 256 = 0#8 := by decide
  refine fxs_congr b ?_
  rw [BitVec.ofInt_add, BitVec.ofInt_mul, hwrap, BitVec.zero_mul, BitVec.add_zero]

@[simp] theorem fxs_zero (b : Word) : fxs b 0 = b := by
  have hzero : BitVec.ofInt 8 0 = 0#8 := by decide
  rw [fxs_eq_ins, hzero, BitVec.add_zero, ins_ex]

theorem fxs_fxs (b : Word) (p q : Int) : fxs (fxs b p) q = fxs b (p + q) := by
  apply pattern_ext
  · simp only [signBit_fxs]
  · simp only [ex_fxs, BitVec.ofInt_add, BitVec.add_assoc]
  · simp only [fracField_fxs]

theorem fxs_neg_fxs (b : Word) (p : Int) : fxs (fxs b p) (-p) = b := by
  rw [fxs_fxs, Int.add_right_neg, fxs_zero]

theorem fxs_toInt_congr (b : Word) {v w : Word} (h : v.extractLsb' 0 8 = w.extractLsb' 0 8) :
    fxs b v.toInt = fxs b w.toInt :=
  fxs_congr b (by rw [ofInt_toInt_lowByte, ofInt_toInt_lowByte, h])

/-! ### The value of a scaled pattern (R123) -/

/-- The value of a pattern whose exponent field is not 0 (R180). -/
theorem value_of_ex_pos {b : Word} (h : 1 ≤ (ex b).toNat) :
    value b = (-1) ^ (signBit b).toNat * (2 : ℚ) ^ (((ex b).toNat : ℤ) - 127) *
      (1 + (fracField b).toNat / 2 ^ 23) := by
  have hne : ex b ≠ 0 := fun h0 => by rw [h0] at h; exact absurd h (by decide)
  rw [value, if_neg hne]

/-- As long as the sum stays within 1 to 255, the adder does not wrap. -/
theorem ex_fxs_toNat_of_no_wrap {b : Word} {p : Int} (hlo : 1 ≤ ((ex b).toNat : Int) + p)
    (hhi : ((ex b).toNat : Int) + p ≤ 255) : ((ex (fxs b p)).toNat : Int) = ((ex b).toNat : Int) + p := by
  rw [ex_fxs_toNat]
  omega

theorem value_fxs {b : Word} {p : Int} (hb : 1 ≤ (ex b).toNat) (hlo : 1 ≤ ((ex b).toNat : Int) + p)
    (hhi : ((ex b).toNat : Int) + p ≤ 255) : value (fxs b p) = value b * (2 : ℚ) ^ p := by
  have hex := ex_fxs_toNat_of_no_wrap hlo hhi
  have hpow : (2 : ℚ) ^ (((ex b).toNat : ℤ) + p - 127) = 2 ^ (((ex b).toNat : ℤ) - 127) * 2 ^ p := by
    rw [add_sub_right_comm, zpow_add₀ two_ne_zero]
  rw [value_of_ex_pos (b := fxs b p) (by omega), value_of_ex_pos hb, signBit_fxs, fracField_fxs, hex, hpow]
  ring

/-! ### `FXS` on an idle codec (R121) -/

/-- The result of R121 in the operand registers, with the sum taken in 32 bits. -/
theorem fxs_powerOfTwo (r : Running) :
    fxs r.a (powerOfTwo r) = (r.a &&& 0x807fffff) ||| ((((r.a >>> 23) + r.b) &&& 0xff) <<< 23) := by
  rw [fxs_eq_ins, powerOfTwo, ofInt_toInt_lowByte, ex_eq_lowByte, ← lowByte_add, ins, setWidth_lowByte]

theorem exec_fxs_of_idle {s : State} (hb : s.busy = false) :
    exec .fxs s = .next (finish ((begin (encode .fxs) s).setY0
      ((s.a &&& 0x807fffff) ||| ((((s.a >>> 23) + s.b) &&& 0xff) <<< 23)))) := by
  rw [exec_of_scalar (by decide) (by decide) hb, operationWork_fxs (decode_encode .fxs), fxsWork,
    fxs_powerOfTwo]
  rfl

end Sys2Proof.Machine
end

section
/-! The statements about the fast exponent scaler (spec/41_fxs.md). -/

namespace Sys2Proof.Settled
open Sys2Proof.Machine

/-- Settles O9: the exponent field and `B` are added in 32 bits, and the mask leaves the 8-bit sum. -/
theorem fxsResult : Obligations.FxsResult := by
  unfold Obligations.FxsResult
  exact ⟨decode_encode .fxs, fun s hb => exec_fxs_of_idle hb⟩

/-- Settles O12: the adjustments add up in the 8-bit exponent field, and the three named values of `B` are
their low bytes `0xff`, 0 and 0. -/
theorem scalerLaws : Obligations.ScalerLaws := by
  unfold Obligations.ScalerLaws
  exact ⟨fun b p q => (fxs_add_wrap b p q).symm, fxs_zero, fxs_fxs, fxs_neg_fxs,
    fun b _ _ h => fxs_toInt_congr b h,
    fun b => fxs_congr b (by decide),
    fun b => (fxs_congr b (by decide)).trans (fxs_zero b),
    fun b => (fxs_congr b (by decide)).trans (fxs_zero b)⟩

/-- Settles O13: without a wrap, the sum in the exponent field is a sum of powers of two. -/
theorem scalerSafeRegion : Obligations.ScalerSafeRegion := by
  unfold Obligations.ScalerSafeRegion
  intro b p hb _ hlo hhi
  exact value_fxs hb hlo (by omega)

/-- Settles O14. -/
theorem scalerFields : Obligations.ScalerFields := by
  unfold Obligations.ScalerFields
  exact fun b p => ⟨signBit_fxs b p, fracField_fxs b p, ex_fxs_toNat b p⟩

end Sys2Proof.Settled
end

section
/-! The mantissa-exponent decoder (R130): `FXE` scales a pattern to exponent field `0x7e` and reports the
adjustment that scales it back. -/

namespace Sys2Proof.Machine

/-! ### The fields of the mantissa (R130) -/

@[simp] theorem signBit_fxeMantissa (b : Word) : signBit (fxeMantissa b) = signBit b := by
  rw [fxeMantissa, signBit_ins, signBit_sm]

@[simp] theorem fracField_fxeMantissa (b : Word) : fracField (fxeMantissa b) = fracField b := by
  rw [fxeMantissa, fracField_ins, fracField_sm]

@[simp] theorem ex_fxeMantissa (b : Word) : ex (fxeMantissa b) = 0x7e := ex_ins _ _

/-- Whatever the pattern, zeros, infinities and NaNs included, the mantissa is a normal number (R133). -/
theorem isNormal_fxeMantissa (b : Word) : isNormal (fxeMantissa b) = true := by
  rw [isNormal, ex_fxeMantissa]
  rfl

/-! ### The extractor as a scaler (R135) -/

theorem ex_eq_fxeExponent_add (b : Word) : ((ex b).toNat : Int) = fxeExponent b + 126 :=
  (Int.sub_add_cancel _ _).symm

/-- The mantissa is the pattern scaled by the negated exponent: the sum of R120 is then `0x7e`. -/
theorem fxeMantissa_eq_fxs (b : Word) : fxeMantissa b = fxs b (-fxeExponent b) := by
  have hsum : ((ex b).toNat : Int) + -fxeExponent b = 126 := by rw [ex_eq_fxeExponent_add]; ring
  rw [fxs, hsum]
  rfl

theorem fxs_fxeMantissa (b : Word) : fxs (fxeMantissa b) (fxeExponent b) = b := by
  rw [fxeMantissa_eq_fxs, fxs_fxs, Int.add_left_neg, fxs_zero]

/-! ### The value of the mantissa (R132, R133) -/

/-- The value of a pattern whose exponent field is 0 (R180). -/
theorem value_of_ex_zero {b : Word} (h : ex b = 0) :
    value b = (-1) ^ (signBit b).toNat * (2 : ℚ) ^ (-126 : ℤ) * ((fracField b).toNat / 2 ^ 23) := by
  rw [value, if_pos h]

theorem frac_ratio_lt_one (b : Word) : ((fracField b).toNat : ℚ) / 2 ^ 23 < 1 := by
  rw [div_lt_one (by positivity)]
  exact_mod_cast frac_lt b

theorem value_fxeMantissa (b : Word) :
    value (fxeMantissa b) = (-1) ^ (signBit b).toNat * ((1 + (fracField b).toNat / 2 ^ 23) / 2) := by
  have hex : (ex (fxeMantissa b)).toNat = 126 := by rw [ex_fxeMantissa]; rfl
  have hpow : (2 : ℚ) ^ (((126 : ℕ) : ℤ) - 127) = 1 / 2 := by norm_num
  rw [value_of_ex_pos (by omega), signBit_fxeMantissa, fracField_fxeMantissa, hex, hpow]
  ring

/-- With exponent field `0x7e`, the implicit leading 1 counts for 1/2. -/
theorem halved_significand_bounds (b : Word) :
    1 / 2 ≤ (1 + (fracField b).toNat / 2 ^ 23 : ℚ) / 2 ∧ (1 + (fracField b).toNat / 2 ^ 23 : ℚ) / 2 < 1 := by
  have hnonneg : 0 ≤ ((fracField b).toNat : ℚ) / 2 ^ 23 := by positivity
  have hlt := frac_ratio_lt_one b
  constructor <;> linarith

theorem value_fxeMantissa_of_positive {b : Word} (hs : signBit b = false) :
    1 / 2 ≤ value (fxeMantissa b) ∧ value (fxeMantissa b) < 1 := by
  rw [value_fxeMantissa, hs, Bool.toNat_false, pow_zero, one_mul]
  exact halved_significand_bounds b

theorem value_fxeMantissa_of_negative {b : Word} (hs : signBit b = true) :
    -1 < value (fxeMantissa b) ∧ value (fxeMantissa b) ≤ -1 / 2 := by
  obtain ⟨hlo, hhi⟩ := halved_significand_bounds b
  rw [value_fxeMantissa, hs, Bool.toNat_true, pow_one]
  constructor <;> linarith

/-- From exponent field 1 on, scaling to field `0x7e` does not wrap and the mantissa is exactly
`value(b) × 2^-x` (R123); at field 255 `value` is the formula of R180 with no number behind it. -/
theorem value_eq_fxeMantissa_mul {b : Word} (h : 1 ≤ (ex b).toNat) :
    value b = value (fxeMantissa b) * (2 : ℚ) ^ fxeExponent b := by
  have hex := ex_eq_fxeExponent_add b
  rw [fxeMantissa_eq_fxs, value_fxs h (by omega) (by omega), zpow_neg,
    inv_mul_cancel_right₀ (zpow_ne_zero _ two_ne_zero)]

theorem fxeExponent_of_ex_zero {b : Word} (h : ex b = 0) : fxeExponent b = -126 := by
  rw [fxeExponent, h]
  rfl

theorem fxeExponent_of_ex_255 {b : Word} (h : ex b = 255) : fxeExponent b = 129 := by
  rw [fxeExponent, h]
  rfl

/-- With exponent field 0 there is no leading 1: the two sides would agree only at a fraction of 1, which
the field cannot hold (R133). -/
theorem value_ne_fxeMantissa_mul {b : Word} (h : ex b = 0) :
    value b ≠ value (fxeMantissa b) * (2 : ℚ) ^ fxeExponent b := by
  intro heq
  rw [value_of_ex_zero h, value_fxeMantissa, fxeExponent_of_ex_zero h, mul_right_comm] at heq
  have hsign : (-1 : ℚ) ^ (signBit b).toNat ≠ 0 := pow_ne_zero _ (by norm_num)
  have hpow : (2 : ℚ) ^ (-126 : ℤ) ≠ 0 := zpow_ne_zero _ two_ne_zero
  have hratio := mul_left_cancel₀ hsign (mul_right_cancel₀ hpow heq)
  have hlt := frac_ratio_lt_one b
  linarith

/-! ### `FXE` on an idle codec (R131) -/

/-- R130 in the words of the bitwise formula. -/
theorem fxeMantissa_eq_or (b : Word) : fxeMantissa b = (b &&& 0x807fffff) ||| 0x3F000000 :=
  ins_sm b 0x7e

/-- `trunc_32(x)`: the subtraction in the integers, cut to 32 bits, is the subtraction in 32 bits. -/
theorem ofInt_fxeExponent (b : Word) : BitVec.ofInt 32 (fxeExponent b) = ((b >>> 23) &&& 0xff) - 126 := by
  have hneg : BitVec.ofInt 32 (-126) = -126#32 := by decide
  rw [fxeExponent, Int.sub_eq_add_neg, BitVec.ofInt_add, BitVec.ofInt_natCast, BitVec.ofNat_toNat, setWidth_ex]
  exact (congrArg _ hneg).trans (BitVec.sub_eq_add_neg _ _).symm

theorem exec_fxe_of_idle {s : State} (hb : s.busy = false) :
    exec .fxe s = .next (finish (((begin (encode .fxe) s).setY0 ((s.a &&& 0x807fffff) ||| 0x3F000000)).setY1
      (((s.a >>> 23) &&& 0xff) - 126))) := by
  rw [exec_of_scalar (by decide) (by decide) hb, operationWork_fxe (decode_encode .fxe), fxeWork,
    fxeMantissa_eq_or, ofInt_fxeExponent]
  rfl

end Sys2Proof.Machine
end

section
/-! The statements about the mantissa-exponent decoder (spec/42_fxe.md). -/

namespace Sys2Proof.Settled
open Sys2Proof.Machine

/-- Settles O10. -/
theorem fxeResult : Obligations.FxeResult := by
  unfold Obligations.FxeResult
  exact ⟨decode_encode .fxe, fun s hb => exec_fxe_of_idle hb⟩

/-- Settles O15: the mantissa is the pattern scaled within the safe region of the scaler, and its exponent
field alone puts it between 1/2 and 1 in magnitude. -/
theorem extractorContract : Obligations.ExtractorContract := by
  unfold Obligations.ExtractorContract
  exact fun b hlo _ => ⟨value_eq_fxeMantissa_mul hlo, value_fxeMantissa_of_positive,
    value_fxeMantissa_of_negative⟩

/-- Settles O16. -/
theorem extractorOutsideContract : Obligations.ExtractorOutsideContract := by
  unfold Obligations.ExtractorOutsideContract
  exact fun b => ⟨fun h => ⟨fxeExponent_of_ex_zero h, value_ne_fxeMantissa_mul h⟩, fxeExponent_of_ex_255,
    isNormal_fxeMantissa b, signBit_fxeMantissa b, fracField_fxeMantissa b⟩

/-- Settles O17: the mantissa is the pattern scaled by the negated exponent, so scaling it by the exponent
adds up to no adjustment. -/
theorem scalerUndoesExtractor : Obligations.ScalerUndoesExtractor := by
  unfold Obligations.ScalerUndoesExtractor
  exact fxs_fxeMantissa

end Sys2Proof.Settled
end

section
/-! The colour arithmetic of `DEC` (R141 to R143): a byte converts exactly, the scale of an exponent byte is a
power of two or +infinity or +0.0, and their product is exact or overflows. -/

namespace Sys2Proof.Machine

/-! ### A byte times a power of two (R143) -/

/-- Bits 30 to 0 of the number `n × 2^(x - 127)`: the leading bit of the byte adds to the exponent field `x`
of the power, and the bits below it are the fraction. -/
def scaledByteLow (x : Nat) (n : Byte) : Nat :=
  (x + Nat.log2 n.toNat) * 2 ^ 23 + (n.toNat - 2 ^ Nat.log2 n.toNat) * 2 ^ (23 - Nat.log2 n.toNat)

theorem log2_byte_le (n : Byte) : Nat.log2 n.toNat ≤ 7 := by
  by_cases h0 : n.toNat = 0
  · rw [h0]; decide
  · exact Nat.le_of_lt_succ ((Nat.log2_lt h0).mpr n.isLt)

section
variable {n : Byte} (hn : 1 ≤ n.toNat)
include hn

/-- With its implicit leading 1, the fraction of a byte is the byte shifted up to bit 23. -/
theorem byte_significand :
    2 ^ 23 + (n.toNat - 2 ^ Nat.log2 n.toNat) * 2 ^ (23 - Nat.log2 n.toNat) =
      n.toNat * 2 ^ (23 - Nat.log2 n.toNat) := by
  have hlog := log2_byte_le n
  have hlo := Nat.log2_self_le (Nat.ne_of_gt hn)
  have htop : 2 ^ 23 = 2 ^ Nat.log2 n.toNat * 2 ^ (23 - Nat.log2 n.toNat) := by
    rw [← pow_add, Nat.add_sub_cancel' (by omega)]
  rw [htop, ← Nat.add_mul, Nat.add_sub_cancel' hlo]

theorem byte_fraction_lt :
    (n.toNat - 2 ^ Nat.log2 n.toNat) * 2 ^ (23 - Nat.log2 n.toNat) < 2 ^ 23 := by
  have hlog := log2_byte_le n
  have hsignificand := byte_significand hn
  have hhi : n.toNat * 2 ^ (23 - Nat.log2 n.toNat) < 2 ^ 24 :=
    calc n.toNat * 2 ^ (23 - Nat.log2 n.toNat)
      _ < 2 ^ (Nat.log2 n.toNat + 1) * 2 ^ (23 - Nat.log2 n.toNat) :=
        Nat.mul_lt_mul_of_pos_right Nat.lt_log2_self (by positivity)
      _ = 2 ^ 24 := by rw [← pow_add]; congr 1; omega
  omega

theorem scaledByteLow_div (x : Nat) : scaledByteLow x n / 2 ^ 23 = x + Nat.log2 n.toNat := by
  have hfrac := byte_fraction_lt hn
  rw [scaledByteLow]
  omega

theorem scaledByteLow_mod (x : Nat) : scaledByteLow x n % 2 ^ 23 =
    (n.toNat - 2 ^ Nat.log2 n.toNat) * 2 ^ (23 - Nat.log2 n.toNat) := by
  have hfrac := byte_fraction_lt hn
  rw [scaledByteLow]
  omega

/-- The pattern is finite as long as its exponent field does not reach 255. -/
theorem scaledByteLow_finite {x : Nat} (hfin : x + Nat.log2 n.toNat ≤ 254) :
    scaledByteLow x n < 0x7F800000 := by
  have hfield := scaledByteLow_div hn x
  omega

theorem magOfLow_scaledByteLow {x : Nat} (hx : 1 ≤ x) :
    magOfLow (scaledByteLow x n) = n.toNat * 2 ^ (x + 22) := by
  have hlog := log2_byte_le n
  have hshift : 23 - Nat.log2 n.toNat + (x + Nat.log2 n.toNat - 1) = x + 22 := by omega
  rw [magOfLow, scaledByteLow_div hn, if_neg (by omega), scaledByteLow_mod hn, byte_significand hn,
    Nat.mul_assoc, ← pow_add, hshift]

theorem value_scaledByteLow {x : Nat} (hx : 1 ≤ x) (hfin : x + Nat.log2 n.toNat ≤ 254) :
    value (pack false (scaledByteLow x n)) = n.toNat * (2 : ℚ) ^ ((x : Int) - 127) := by
  have hlow := scaledByteLow_finite hn hfin
  have hpow : (2 : ℚ) ^ ((x : Int) - 127) = 2 ^ (x + 22) / 2 ^ 149 := by
    rw [← zpow_natCast, ← zpow_natCast, ← zpow_sub₀ two_ne_zero]
    congr 1
    push_cast
    ring
  rw [value_pack _ (by omega), magOfLow_scaledByteLow hn hx, hpow]
  push_cast
  rw [Bool.toNat_false, pow_zero, one_mul, mul_div_assoc]

end

/-! ### The conversion of a byte (R184) -/

theorem u8ToF32_of_zero {n : Byte} (h : n.toNat = 0) : u8ToF32 n = 0 := by
  rw [u8ToF32, if_pos (BitVec.eq_of_toNat_eq h)]
  rfl

theorem pack_false (low : Nat) : pack false low = BitVec.ofNat 32 low := by
  rw [pack, if_neg Bool.false_ne_true, Nat.zero_add]

/-- A byte that is not 0 is itself times `2^0`. -/
theorem u8ToF32_of_pos {n : Byte} (h : 1 ≤ n.toNat) : u8ToF32 n = pack false (scaledByteLow 127 n) := by
  have hne : n ≠ 0 := by rintro rfl; exact absurd h (by decide)
  rw [u8ToF32, if_neg hne, pack_false, scaledByteLow]

/-- Every byte is some finite magnitude with the sign clear. -/
theorem u8ToF32_eq_pack (n : Byte) : ∃ low, low < 0x7F800000 ∧ magOfLow low = n.toNat * 2 ^ 149 ∧
    u8ToF32 n = pack false low := by
  have hlog := log2_byte_le n
  rcases Nat.eq_zero_or_pos n.toNat with h | h
  · exact ⟨0, by decide, by rw [h]; rfl, u8ToF32_of_zero h⟩
  · exact ⟨_, scaledByteLow_finite h (by omega), magOfLow_scaledByteLow h (by decide), u8ToF32_of_pos h⟩

@[simp] theorem signBit_u8ToF32 (n : Byte) : signBit (u8ToF32 n) = false := by
  obtain ⟨low, hlow, -, hpack⟩ := u8ToF32_eq_pack n
  rw [hpack, signBit_pack _ (by omega)]

@[simp] theorem isFinite_u8ToF32 (n : Byte) : isFinite (u8ToF32 n) = true := by
  obtain ⟨low, hlow, -, hpack⟩ := u8ToF32_eq_pack n
  rw [hpack, isFinite_pack _ hlow]

/-- The conversion is exact: `n` is `n × 2^149` units of the least subnormal. -/
theorem mag_u8ToF32 (n : Byte) : mag (u8ToF32 n) = n.toNat * 2 ^ 149 := by
  obtain ⟨low, hlow, hmag, hpack⟩ := u8ToF32_eq_pack n
  rw [hpack, mag_pack _ (by omega), hmag]

theorem isZero_u8ToF32 (n : Byte) : isZero (u8ToF32 n) = true ↔ n.toNat = 0 := by
  rw [← mag_eq_zero_iff, mag_u8ToF32, Nat.mul_eq_zero, or_iff_left (Nat.two_pow_pos 149).ne']

/-! ### The scale (R142) -/

@[simp] theorem signBit_decScale (e : Byte) : signBit (decScale e) = false := signBit_fxs one _

@[simp] theorem fracField_decScale (e : Byte) : fracField (decScale e) = 0 := fracField_fxs one _

/-- The exponent field of 1.0 is the bias. -/
theorem ex_one_toNat : (ex one).toNat = 127 := by decide

/-- The exponent field of the scale is `e - 9` in 8 bits. -/
theorem ex_decScale_toNat (e : Byte) : (ex (decScale e)).toNat = (e.toNat + 247) % 256 := by
  have hsum := ex_fxs_toNat one (e.toNat - 136)
  rw [ex_one_toNat] at hsum
  rw [decScale]
  omega

/-- The scale is its exponent field alone. -/
theorem decScale_toNat (e : Byte) : (decScale e).toNat = (e.toNat + 247) % 256 * 2 ^ 23 := by
  rw [pattern_toNat, signBit_decScale, fracField_decScale, ex_decScale_toNat, Bool.toNat_false, Nat.zero_mul,
    Nat.zero_add]
  exact Nat.add_zero _

theorem decScale_eq {e : Byte} {b : Word} (h : (e.toNat + 247) % 256 * 2 ^ 23 = b.toNat) : decScale e = b :=
  BitVec.eq_of_toNat_eq ((decScale_toNat e).trans h)

theorem mag_decScale (e : Byte) : mag (decScale e) =
    if (ex (decScale e)).toNat = 0 then 0 else 2 ^ 23 * 2 ^ ((ex (decScale e)).toNat - 1) := by
  rw [mag_eq, fracField_decScale]
  rfl

theorem mag_decScale_of_ex_zero {e : Byte} (h : (ex (decScale e)).toNat = 0) : mag (decScale e) = 0 := by
  rw [mag_decScale, if_pos h]

theorem mag_decScale_of_ex_pos {e : Byte} (h : 1 ≤ (ex (decScale e)).toNat) :
    mag (decScale e) = 2 ^ ((ex (decScale e)).toNat + 22) := by
  rw [mag_decScale, if_neg (by omega), ← pow_add]
  congr 1
  omega

/-- Only exponent byte 8 wraps to exponent field 255. -/
theorem isFinite_decScale {e : Byte} (h : e.toNat ≠ 8) : isFinite (decScale e) = true := by
  rw [isFinite_iff, ex_decScale_toNat]
  omega

theorem decScale_eight : decScale 8 = 0x7F800000 := decScale_eq rfl

theorem decScale_of_no_wrap {e : Byte} (h : 10 ≤ e.toNat) :
    decScale e = (BitVec.ofNat 32 (e.toNat - 9)) <<< 23 := by
  apply BitVec.eq_of_toNat_eq
  rw [decScale_toNat, BitVec.toNat_shiftLeft, BitVec.toNat_ofNat, Nat.shiftLeft_eq]
  omega

theorem value_one : value one = 1 := by
  have hsign : signBit one = false := by decide
  have hfrac : fracField one = 0 := by decide
  rw [value_of_ex_pos (by decide), ex_one_toNat, hsign, hfrac]
  norm_num

theorem value_decScale {e : Byte} (h : 10 ≤ e.toNat) : value (decScale e) = (2 : ℚ) ^ ((e.toNat : Int) - 136) := by
  have hone := ex_one_toNat
  rw [decScale, value_fxs (by omega) (by omega) (by omega), value_one, one_mul]

/-! ### Their product (R143, R185) -/

theorem fmul_of_finite {a b : Word} (ha : isFinite a = true) (hb : isFinite b = true) :
    fmul a b = pack (signBit a != signBit b) (roundMag (mag a * mag b) (2 ^ 149)) := by
  simp [fmul, isNan_of_finite ha, isNan_of_finite hb, isInf_of_finite ha, isInf_of_finite hb]

/-- The product is a whole number of units, rounded. -/
theorem colour_of_finite_scale (n : Byte) {e : Byte} (h : e.toNat ≠ 8) :
    fmul (u8ToF32 n) (decScale e) = pack false (roundMag (n.toNat * mag (decScale e) * 2 ^ 149) (2 ^ 149)) := by
  rw [fmul_of_finite (isFinite_u8ToF32 n) (isFinite_decScale h), signBit_u8ToF32, signBit_decScale, mag_u8ToF32,
    Nat.mul_right_comm]
  rfl

/-- Zero on either side gives +0.0. -/
theorem colour_of_zero {n e : Byte} (h : e.toNat ≠ 8) (hzero : n.toNat = 0 ∨ (ex (decScale e)).toNat = 0) :
    fmul (u8ToF32 n) (decScale e) = 0 := by
  have hmag : n.toNat * mag (decScale e) = magOfLow 0 := by
    rcases hzero with h0 | h0
    · rw [h0, Nat.zero_mul]; rfl
    · rw [mag_decScale_of_ex_zero h0]; rfl
  rw [colour_of_finite_scale n h, hmag, roundMag_exact (by positivity) (by decide)]
  rfl

section
variable {n e : Byte} (hn : 1 ≤ n.toNat) (he : e.toNat ≠ 8) (hx : 1 ≤ (ex (decScale e)).toNat)
include hn he hx

/-- A product below `2^128` is a representable number, so it is not rounded. -/
theorem colour_exact (hfin : (ex (decScale e)).toNat + Nat.log2 n.toNat ≤ 254) :
    fmul (u8ToF32 n) (decScale e) = pack false (scaledByteLow (ex (decScale e)).toNat n) := by
  rw [colour_of_finite_scale n he, mag_decScale_of_ex_pos hx, ← magOfLow_scaledByteLow hn hx,
    roundMag_exact (by positivity) (scaledByteLow_finite hn hfin)]

/-- A product of at least `2^128` is +infinity. -/
theorem colour_overflow (hinf : 255 ≤ (ex (decScale e)).toNat + Nat.log2 n.toNat) :
    fmul (u8ToF32 n) (decScale e) = 0x7F800000 := by
  have hbig : (2 ^ 25 - 1) * 2 ^ 252 ≤ n.toNat * mag (decScale e) :=
    calc (2 ^ 25 - 1) * 2 ^ 252 ≤ 2 ^ 22 * 2 ^ 255 := by norm_num
      _ ≤ 2 ^ 22 * 2 ^ ((ex (decScale e)).toNat + Nat.log2 n.toNat) :=
        Nat.mul_le_mul_left _ (Nat.pow_le_pow_right (by decide) hinf)
      _ = 2 ^ Nat.log2 n.toNat * mag (decScale e) := by rw [mag_decScale_of_ex_pos hx]; ring
      _ ≤ n.toNat * mag (decScale e) := Nat.mul_le_mul_right _ (Nat.log2_self_le (Nat.ne_of_gt hn))
  have hround : roundMag (n.toNat * mag (decScale e) * 2 ^ 149) (2 ^ 149) = 0x7F800000 :=
    (roundMag_infinite_iff _ (by positivity)).mpr
      ((Nat.mul_comm _ _).trans_le (Nat.mul_le_mul_right _ hbig))
  rw [colour_of_finite_scale n he, hround]
  rfl

end

/-- Under the infinite scale a colour byte 0 is the invalid operation of R186. -/
theorem colour_invalid {n : Byte} (h : n.toNat = 0) : fmul (u8ToF32 n) (decScale 8) = defaultNan := by
  rw [u8ToF32_of_zero h, decScale_eight]
  rfl

/-- A number that is not zero times +infinity is an infinity with the number's sign. -/
theorem fmul_pinf {a : Word} (ha : isFinite a = true) (hzero : isZero a = false) :
    fmul a pinf = pack (signBit a) 0x7F800000 := by
  have hnan : isNan pinf = false := by decide
  have hinf : isInf pinf = true := by decide
  have hsign : signBit pinf = false := by decide
  simp [fmul, isNan_of_finite ha, isInf_of_finite ha, hzero, hnan, hinf, hsign]

theorem colour_infinite {n : Byte} (h : 1 ≤ n.toNat) : fmul (u8ToF32 n) (decScale 8) = 0x7F800000 := by
  have hzero : isZero (u8ToF32 n) = false := by rw [← Bool.not_eq_true, isZero_u8ToF32]; omega
  rw [decScale_eight]
  exact (fmul_pinf (isFinite_u8ToF32 n) hzero).trans (by rw [signBit_u8ToF32]; rfl)

/-! ### A decoded pixel (R141) -/

theorem decPx_of_zero {p : PackedPixel} (h : p.e = 0) : decPx p = ⟨0, 0, 0, 0⟩ := by
  rw [decPx, if_pos h]
  rfl

theorem decPx_alpha {p : PackedPixel} (h : p.e ≠ 0) : (decPx p).a = 0x3F800000 := by
  rw [decPx, if_neg h]
  rfl

/-- The three colours are decoded alike. -/
theorem decPx_colour {p : PackedPixel} (h : p.e ≠ 0) {k : Nat} (hk : k < 3) :
    unpackedComponent (decPx p) k = fmul (u8ToF32 (packedComponent p k)) (decScale p.e) := by
  rw [decPx, if_neg h]
  interval_cases k <;> rfl

/-! ### The rows of R143 -/

section
variable {n e : Byte} (hn : 1 ≤ n.toNat)
include hn

/-- Without a wrap of the exponent sum every product is finite: the field is at most 246 + 7. -/
theorem colour_of_no_wrap (he : 10 ≤ e.toNat) :
    fmul (u8ToF32 n) (decScale e) = pack false (scaledByteLow (e.toNat - 9) n) ∧
    value (fmul (u8ToF32 n) (decScale e)) = n.toNat * (2 : ℚ) ^ ((e.toNat : Int) - 136) := by
  have hlog := log2_byte_le n
  have hx : (ex (decScale e)).toNat = e.toNat - 9 := by rw [ex_decScale_toNat]; omega
  have hexp : ((e.toNat - 9 : Nat) : Int) - 127 = (e.toNat : Int) - 136 := by omega
  have hexact := colour_exact (e := e) hn (by omega) (by omega) (by omega)
  rw [hx] at hexact
  rw [hexact, value_scaledByteLow hn (by omega) (by omega), hexp]
  exact ⟨rfl, rfl⟩

/-- With a wrapped exponent sum, from 248 to 254, the product is finite up to field 254. -/
theorem colour_of_wrap (he : 1 ≤ e.toNat) (he7 : e.toNat ≤ 7) (hfin : n.toNat < 2 ^ (8 - e.toNat)) :
    fmul (u8ToF32 n) (decScale e) = pack false (scaledByteLow (e.toNat + 247) n) ∧
    value (fmul (u8ToF32 n) (decScale e)) = n.toNat * (2 : ℚ) ^ (e.toNat + 120) := by
  have hlog : Nat.log2 n.toNat < 8 - e.toNat := (Nat.log2_lt (Nat.ne_of_gt hn)).mpr hfin
  have hx : (ex (decScale e)).toNat = e.toNat + 247 := by rw [ex_decScale_toNat]; omega
  have hexp : ((e.toNat + 247 : Nat) : Int) - 127 = ((e.toNat + 120 : Nat) : Int) := by omega
  have hexact := colour_exact (e := e) hn (by omega) (by omega) (by omega)
  rw [hx] at hexact
  rw [hexact, value_scaledByteLow hn (by omega) (by omega), hexp, zpow_natCast]
  exact ⟨rfl, rfl⟩

/-- Beyond that it overflows. -/
theorem colour_of_wrap_overflow (he : 1 ≤ e.toNat) (he7 : e.toNat ≤ 7) (hinf : 2 ^ (8 - e.toNat) ≤ n.toNat) :
    fmul (u8ToF32 n) (decScale e) = 0x7F800000 := by
  have hlog : 8 - e.toNat ≤ Nat.log2 n.toNat := (Nat.le_log2 (Nat.ne_of_gt hn)).mpr hinf
  have hx : (ex (decScale e)).toNat = e.toNat + 247 := by rw [ex_decScale_toNat]; omega
  exact colour_overflow hn (by omega) (by omega) (by omega)

end

end Sys2Proof.Machine
end

section
/-! What `DEC` leaves in its buffers and registers (R140 to R148), and a buffer operation that is given an
invalid channel count (R145, R166). -/

namespace Sys2Proof.Machine

/-! ### `DEC` with a valid channel count -/

/-- What lies from the last whole pixel on keeps its value (R54). -/
theorem readUf_operationWork_dec_trailing {r : Running} (hd : decode r.cmd = .ok .dec)
    (hvalid : validChannels r = true) (s : State) {j : Nat} (hj : elementsUf r ≤ j) :
    (operationWork r s).readUf j = s.readUf j := by
  have hread := (read_decPixels (channels_of_valid hvalid) (pixelCount r) s j).trans
    (if_neg (Nat.not_lt.mpr hj))
  simp [operationWork_dec hd, decWork, decResult, State.readUf, ← pixelCount_dec hd, hread]

/-- Component `k` of a whole pixel `p`, by its index (R53). -/
theorem readUf_operationWork_dec_component {r : Running} (hd : decode r.cmd = .ok .dec) (s : State) {p k : Nat}
    (hp : p < pixelCount r) (hk : k < channels r) :
    (operationWork r s).readUf (channels r * p + k) = unpackedComponent (decPx (packedAt s p)) k := by
  have hin : channels r * p + k < elementsUf r :=
    calc channels r * p + k < channels r * (p + 1) := by rw [Nat.mul_succ]; omega
      _ ≤ elementsUf r := Nat.mul_le_mul_left _ hp
  have hdiv : (channels r * p + k) / channels r = p := by
    rw [Nat.mul_add_div (by omega), Nat.div_eq_of_lt hk, Nat.add_zero]
  have hmod : (channels r * p + k) % channels r = k := by rw [Nat.mul_add_mod, Nat.mod_eq_of_lt hk]
  rw [readUf_operationWork_dec hd s hin, hdiv, hmod]

/-- `DEC` writes `UF` and `CNT` and nothing else beside `STATUS` (R34, R54). -/
theorem operationWork_dec_frame {r : Running} (hd : decode r.cmd = .ok .dec) (s : State) :
    ∃ u, operationWork r s = (s.setUf u).setCnt (BitVec.ofNat 64 (decCount r * channels r)) :=
  ⟨_, by rw [operationWork_dec hd, decWork, decPixels_eq]; rfl⟩

/-- The count of components fits `CNT`, since it is at most the size of the buffer (R144). -/
theorem cnt_operationWork_dec {r : Running} (hd : decode r.cmd = .ok .dec) {s : State}
    (hs : sizesSuffice r s = true) : (operationWork r s).cnt.toNat = decCount r * channels r := by
  obtain ⟨u, hframe⟩ := operationWork_dec_frame hd s
  obtain ⟨-, hsize⟩ := (sizesSuffice_iff r s).mp hs
  have hfit : decCount r * channels r < 2 ^ 64 :=
    calc decCount r * channels r = elementsUf r := by rw [elementsUf, pixelCount_dec hd, Nat.mul_comm]
      _ ≤ s.ufSize.val := hsize
      _ < 2 ^ 64 := s.ufSize.isLt
  rw [hframe]
  exact (BitVec.toNat_ofNat _ _).trans (Nat.mod_eq_of_lt hfit)

/-! ### An invalid channel count -/

/-- No pixel, and a count of 0 (R145, R166). -/
theorem operationWork_of_invalid {r : Running} (hd : decode r.cmd = .ok .dec ∨ decode r.cmd = .ok .enc)
    (hv : validChannels r = false) (s : State) : operationWork r s = s.setCnt 0 := by
  rcases hd with hd | hd
  · have hcount : decCount r = 0 := if_neg (by simp [hv])
    rw [operationWork_dec hd, decWork, decResult, hcount, Nat.zero_mul]
    rfl
  · have hcount : encCount r = 0 := if_neg (by simp [hv])
    rw [operationWork_enc hd, encWork, encResult, hcount, Nat.zero_mul]
    rfl

/-- Such an operation needs no buffer (R69), so an idle codec runs it. -/
theorem exec_of_invalid {i : Instr} {s : State} (hi : i = .dec ∨ i = .enc) (hb : s.busy = false)
    (hv : validChannels (sample (encode i) s) = false) :
    exec i s = .next (finish ((begin (encode i) s).setCnt 0)) := by
  have hpixel : pixelCount (sample (encode i) s) = 0 := by
    by_contra hne
    rw [valid_of_pixel hne] at hv
    cases hv
  have hd : decode (sample (encode i) s).cmd = .ok .dec ∨ decode (sample (encode i) s).cmd = .ok .enc := by
    rw [sample_cmd, decode_encode]
    exact hi.imp (congrArg _) (congrArg _)
  rw [exec_of_ready hb (sizesSuffice_of_no_pixel hpixel s), operationWork_of_invalid hd hv]

end Sys2Proof.Machine
end

section
/-! The statements about the decoder (spec/43_decode.md). -/

namespace Sys2Proof.Settled
open Sys2Proof.Machine

/-- Settles O25: each row of the table is the exponent field of its byte. -/
theorem decodeScaleTable : Obligations.DecodeScaleTable := by
  unfold Obligations.DecodeScaleTable
  exact ⟨decScale_eq rfl, decScale_eq rfl, decScale_eq rfl, decScale_eq rfl, decScale_eq rfl, decScale_eq rfl,
    decScale_eq rfl, decScale_eight, decScale_eq rfl,
    fun _ he => ⟨decScale_of_no_wrap he, value_decScale he⟩⟩

/-- Settles O26, one row of R143 after the other: the scale is a power of two (`10 ≤ e` and, wrapped,
`e ≤ 7`), +0.0 (`e = 9`) or +infinity (`e = 8`). -/
theorem decodedColourClosedForm : Obligations.DecodedColourClosedForm := by
  unfold Obligations.DecodedColourClosedForm
  intro p n he hn c out k
  have hout : out = fmul (u8ToF32 (packedComponent p n)) (decScale p.e) := decPx_colour he hn
  have hpos : 1 ≤ p.e.toNat := Nat.pos_of_ne_zero fun h => he (BitVec.eq_of_toNat_eq h)
  rw [hout]
  refine ⟨fun hlo hc => ?_, fun hlo hc => ?_, fun h9 => ?_, fun h8 hc => ?_, fun h8 hc => ?_, fun hhi hc => ?_,
    fun hhi hc hfin => ?_, fun hhi hinf => ?_⟩
  · exact colour_of_zero (by omega) (.inl hc)
  · obtain ⟨hpattern, hvalue⟩ := colour_of_no_wrap hc hlo
    exact ⟨hpattern.trans (pack_false _), hvalue⟩
  · exact colour_of_zero (by rw [h9]; decide) (.inr (by rw [h9]; decide))
  · rw [h8]; exact colour_invalid hc
  · rw [h8]; exact colour_infinite hc
  · exact colour_of_zero (by omega) (.inl hc)
  · obtain ⟨hpattern, hvalue⟩ := colour_of_wrap hc hpos hhi hfin
    exact ⟨hpattern.trans (pack_false _), hvalue⟩
  · exact colour_of_wrap_overflow ((Nat.pow_pos (by decide)).trans_le hinf) hpos hhi hinf

/-- Settles O28: the loop's result by pixel and component, the trailing elements, and the frame. -/
theorem decodeBufferResult : Obligations.DecodeBufferResult := by
  unfold Obligations.DecodeBufferResult
  intro s hb hch hpb huf
  have hd : decode (sample (encode .dec) s).cmd = .ok .dec := decode_encode .dec
  have hvalid : validChannels (sample (encode .dec) s) = true := (validChannels_iff _).mpr hch
  have hcount := pixelCount_sample_dec hch
  have hdecCount := (pixelCount_dec hd).symm.trans hcount
  have hs : sizesSuffice (sample (encode .dec) s) s = true := by
    rw [sizesSuffice_iff, elementsPb, elementsUf, hcount]
    exact ⟨hpb, huf⟩
  refine ⟨_, exec_of_ready hb hs, fun p k hp hk => ?_, fun j hj => ?_, ?_, ?_⟩
  · exact readUf_operationWork_dec_component hd (begin (encode .dec) s) (hp.trans_eq hcount.symm) hk
  · have htrailing : elementsUf (sample (encode .dec) s) ≤ j := by rwa [elementsUf, hcount]
    exact readUf_operationWork_dec_trailing hd hvalid (begin (encode .dec) s) htrailing
  · rw [finish_cnt, cnt_operationWork_dec (s := begin (encode .dec) s) hd hs, hdecCount]
    rfl
  · obtain ⟨u, hframe⟩ := operationWork_dec_frame hd (begin (encode .dec) s)
    rw [hframe]
    rfl

/-- Settles O27. -/
theorem decodedAlphaAndZeroSentinel : Obligations.DecodedAlphaAndZeroSentinel := by
  unfold Obligations.DecodedAlphaAndZeroSentinel
  exact fun p => ⟨decPx_of_zero, decPx_alpha⟩

/-- Settles O29. -/
theorem invalidChannelsNoOp : Obligations.InvalidChannelsNoOp := by
  unfold Obligations.InvalidChannelsNoOp
  intro s i hi hb h3 h4
  have hv : validChannels (sample (encode i) s) = false := by
    rw [← Bool.not_eq_true, validChannels_iff]
    exact not_or.mpr ⟨h3, h4⟩
  exact exec_of_invalid hi hb hv

end Sys2Proof.Settled
end

section
/-! What `ENC` leaves in its buffers and registers with a valid channel count (R160, R165, R167). -/

namespace Sys2Proof.Machine

/-- What lies from the last whole pixel on keeps its value (R54). -/
theorem readPb_operationWork_enc_trailing {r : Running} (hd : decode r.cmd = .ok .enc) (s : State) {i : Nat}
    (hi : elementsPb r ≤ i) : (operationWork r s).readPb i = s.readPb i := by
  have hread := (read_encPixels (channels r) (pixelCount r) s i).trans (if_neg (Nat.not_lt.mpr hi))
  simp [operationWork_enc hd, encWork, encResult, State.readPb, ← pixelCount_enc hd, hread]

/-- Component `k` of a whole pixel `p`, by its index (R52). -/
theorem readPb_operationWork_enc_component {r : Running} (hd : decode r.cmd = .ok .enc) (s : State) {p k : Nat}
    (hp : p < pixelCount r) (hk : k < 4) :
    (operationWork r s).readPb (4 * p + k) = packedComponent (encodeAt s (channels r * p)) k := by
  have hin : 4 * p + k < elementsPb r := by rw [elementsPb]; omega
  have hdiv : (4 * p + k) / 4 = p := by omega
  have hmod : (4 * p + k) % 4 = k := by omega
  rw [readPb_operationWork_enc hd s hin, hdiv, hmod]

/-- `ENC` writes `PB` and `CNT` and nothing else beside `STATUS` (R34, R54). -/
theorem operationWork_enc_frame {r : Running} (hd : decode r.cmd = .ok .enc) (s : State) :
    ∃ m, operationWork r s = (s.setPb m).setCnt (BitVec.ofNat 64 (encCount r * 4)) :=
  ⟨_, by rw [operationWork_enc hd, encWork, encPixels_eq]; rfl⟩

/-- The count of components fits `CNT`, since it is at most the size of the buffer (R165). -/
theorem cnt_operationWork_enc {r : Running} (hd : decode r.cmd = .ok .enc) {s : State}
    (hs : sizesSuffice r s = true) : (operationWork r s).cnt.toNat = encCount r * 4 := by
  obtain ⟨m, hframe⟩ := operationWork_enc_frame hd s
  obtain ⟨hsize, -⟩ := (sizesSuffice_iff r s).mp hs
  have hfit : encCount r * 4 < 2 ^ 64 :=
    calc encCount r * 4 = elementsPb r := by rw [elementsPb, pixelCount_enc hd, Nat.mul_comm]
      _ ≤ s.pbSize.val := hsize
      _ < 2 ^ 64 := s.pbSize.isLt
  rw [hframe]
  exact (BitVec.toNat_ofNat _ _).trans (Nat.mod_eq_of_lt hfit)

end Sys2Proof.Machine
end

section
/-! The order of patterns is the order of their numbers (R181), and the maximum of a pixel's components and
its threshold (R189, R191). -/

namespace Sys2Proof.Machine

/-! ### The order of patterns (R181) -/

/-- The number of units of 2^-149 at a place of the order `orderKey`. -/
def unitsOfKey (k : Int) : Int := if k < 0 then -(magOfLow k.natAbs : Int) else magOfLow k.natAbs

theorem unitsOfKey_neg (k : Int) : unitsOfKey (-k) = -unitsOfKey k := by
  have hzero : magOfLow 0 = 0 := rfl
  unfold unitsOfKey
  rw [Int.natAbs_neg]
  rcases Int.lt_trichotomy k 0 with h | rfl | h
  · rw [if_neg (by omega), if_pos h, Int.neg_neg]
  · simp [hzero]
  · rw [if_pos (by omega), if_neg (by omega)]

theorem unitsOfKey_strictMono : StrictMono unitsOfKey := by
  refine strictMono_of_odd_strictMonoOn_nonneg unitsOfKey_neg fun k hk k' hk' hlt => ?_
  have hk0 : 0 ≤ k := hk
  have hk0' : 0 ≤ k' := hk'
  rw [unitsOfKey, if_neg (by omega), unitsOfKey, if_neg (by omega)]
  exact_mod_cast magOfLow_strictMono (by omega : k.natAbs < k'.natAbs)

theorem value_eq_unitsOfKey (b : Word) : value b = (unitsOfKey (orderKey b) : ℚ) / 2 ^ 149 := by
  have hneg := unitsOfKey_neg ((b.toNat % 2 ^ 31 : Nat) : Int)
  have hpos : unitsOfKey ((b.toNat % 2 ^ 31 : Nat) : Int) = magOfLow (b.toNat % 2 ^ 31) := by
    rw [unitsOfKey, if_neg (by omega), Int.natAbs_natCast]
  rw [value_eq_mag, mag_eq_magOfLow, orderKey]
  cases signBit b with
  | false => simp only [Bool.false_eq_true, if_false, hpos]; simp
  | true => simp only [if_true, hneg, hpos]; simp

theorem value_of_zero {c : Word} (h : isZero c = true) : value c = 0 := by
  rw [value_eq_mag, (mag_eq_zero_iff c).mpr h]
  simp

theorem value_nonneg_of_sign {c : Word} (h : signBit c = false ∨ isZero c = true) : 0 ≤ value c := by
  rcases h with h | h
  · rw [value_eq_mag, h, Bool.toNat_false, pow_zero]
    positivity
  · exact (value_of_zero h).ge

theorem signBit_of_value_neg {c : Word} (h : value c < 0) : signBit c = true := by
  by_contra hpos
  exact absurd (value_nonneg_of_sign (.inl (Bool.eq_false_iff.mpr hpos))) (not_le.mpr h)

/-- The order of R181 is the order of the numbers, the two zeros being equal in both. -/
theorem value_le_iff (a b : Word) : value a ≤ value b ↔ orderKey a ≤ orderKey b := by
  rw [value_eq_unitsOfKey, value_eq_unitsOfKey, div_le_div_iff_of_pos_right (by positivity), Int.cast_le,
    unitsOfKey_strictMono.le_iff_le]

/-! ### The maximum (R191) -/

theorem fgt_iff (a b : Word) :
    fgt a b = true ↔ isNan a = false ∧ isNan b = false ∧ orderKey b < orderKey a := by
  simp [fgt, and_assoc]

/-- One comparison of the chain of R191. -/
def greater (a b : Word) : Word := if fgt b a then b else a

theorem max3_eq_greater (r g b : Word) : max3 r g b = greater (greater r g) b := rfl

theorem greater_of_nan {a : Word} (h : isNan a = true) (b : Word) : greater a b = a :=
  if_neg (by simp [fgt_iff, h])

theorem isNan_greater {a : Word} (h : isNan a = false) (b : Word) : isNan (greater a b) = false := by
  unfold greater
  split
  · obtain ⟨hb, -⟩ := (fgt_iff b a).mp ‹_›
    exact hb
  · exact h

theorem orderKey_le_greater_left (a b : Word) : orderKey a ≤ orderKey (greater a b) := by
  unfold greater
  split
  · obtain ⟨-, -, hlt⟩ := (fgt_iff b a).mp ‹_›
    exact hlt.le
  · exact le_rfl

theorem orderKey_le_greater_right {a b : Word} (ha : isNan a = false) (hb : isNan b = false) :
    orderKey b ≤ orderKey (greater a b) := by
  unfold greater
  split
  · exact le_rfl
  · rename_i h
    exact not_lt.mp fun hlt => h ((fgt_iff b a).mpr ⟨hb, ha, hlt⟩)

theorem max3_of_nan {r : Word} (h : isNan r = true) (g b : Word) : max3 r g b = r := by
  rw [max3_eq_greater, greater_of_nan h, greater_of_nan h]

/-- A maximum that is not a NaN comes from a chain that did not start with one. -/
theorem isNan_red_of_max3 {r g b : Word} (h : isNan (max3 r g b) = false) : isNan r = false := by
  by_contra hr
  rw [Bool.not_eq_false] at hr
  rw [max3_of_nan hr, hr] at h
  cases h

/-- No number among the components is above the maximum, whatever NaNs there are in `g` and `b`. -/
theorem orderKey_le_max3 {r g b c : Word} (h : isNan (max3 r g b) = false) (hc : c ∈ [r, g, b])
    (hnan : isNan c = false) : orderKey c ≤ orderKey (max3 r g b) := by
  have hr := isNan_red_of_max3 h
  have hstep := orderKey_le_greater_left (greater r g) b
  rw [max3_eq_greater]
  simp only [List.mem_cons, List.not_mem_nil, or_false] at hc
  rcases hc with rfl | rfl | rfl
  · exact (orderKey_le_greater_left _ _).trans hstep
  · exact (orderKey_le_greater_right hr hnan).trans hstep
  · exact orderKey_le_greater_right (isNan_greater hr g) hnan

theorem value_le_max3 {r g b c : Word} (h : isFinite (max3 r g b) = true) (hc : c ∈ [r, g, b])
    (hfin : isFinite c = true) : value c ≤ value (max3 r g b) :=
  (value_le_iff _ _).mpr (orderKey_le_max3 (isNan_of_finite h) hc (isNan_of_finite hfin))

/-! ### The threshold (R189) -/

theorem ltThresh_eq_false_iff {m : Word} (h : isNan m = false) :
    ltThresh m = false ↔ signBit m = false ∧ 0x0A4FB11F ≤ m.toNat := by
  simp only [ltThresh, h, Bool.not_false, Bool.true_and, Bool.or_eq_false_iff, decide_eq_false_iff_not, not_le,
    Nat.lt_iff_add_one_le]

theorem signBit_of_passing {m : Word} (hfin : isFinite m = true) (h : ltThresh m = false) :
    signBit m = false :=
  ((ltThresh_eq_false_iff (isNan_of_finite hfin)).mp h).1

/-- The threshold has exponent field 20; a NaN, which passes too, has 255. -/
theorem ex_of_passing {m : Word} (h : ltThresh m = false) : 20 ≤ (ex m).toNat := by
  cases hnan : isNan m with
  | true => rw [((isNan_iff m).mp hnan).1]; decide
  | false =>
    obtain ⟨hsign, hge⟩ := (ltThresh_eq_false_iff hnan).mp h
    have hpattern := pattern_toNat m
    have hfrac := frac_lt m
    rw [hsign, Bool.toNat_false] at hpattern
    omega

end Sys2Proof.Machine
end

section
/-! Exact products and quotients, scaling by a power of two, and the byte cast (R182, R185 to R187, R190). -/

namespace Sys2Proof.Machine

/-! ### Results that need no rounding (R185, R187) -/

theorem fdiv_of_finite {a b : Word} (ha : isFinite a = true) (hb : isFinite b = true) (hz : isZero b = false) :
    fdiv a b = pack (signBit a != signBit b) (roundMag (mag a * 2 ^ 149) (mag b)) := by
  simp [fdiv, isNan_of_finite ha, isNan_of_finite hb, isInf_of_finite ha, isInf_of_finite hb, hz]

/-- The sign of a product or a quotient. -/
theorem sign_pow_bne (s t : Bool) : (-1 : ℚ) ^ (s != t).toNat = (-1) ^ s.toNat * (-1) ^ t.toNat := by
  cases s <;> cases t <;> simp

theorem sign_pow_mul_self (s : Bool) : (-1 : ℚ) ^ s.toNat * (-1) ^ s.toNat = 1 := by
  cases s <;> simp

theorem mag_pos_of_not_zero {b : Word} (h : isZero b = false) : 0 < mag b :=
  Nat.pos_of_ne_zero fun h0 => by rw [(mag_eq_zero_iff b).mp h0] at h; cases h

section
variable {a b : Word} (ha : isFinite a = true) (hb : isFinite b = true) {low : Nat} (hlow : low < 0x7F800000)
include ha hb hlow

theorem fmul_exact (h : mag a * mag b = magOfLow low * 2 ^ 149) :
    fmul a b = pack (signBit a != signBit b) low := by
  rw [fmul_of_finite ha hb, h, roundMag_exact (by positivity) hlow]

theorem value_fmul_exact (h : mag a * mag b = magOfLow low * 2 ^ 149) :
    value (fmul a b) = value a * value b := by
  have hq : (mag a : ℚ) * mag b = magOfLow low * 2 ^ 149 := by exact_mod_cast h
  rw [fmul_exact ha hb hlow h, value_pack _ (by omega), value_eq_mag a, value_eq_mag b, sign_pow_bne]
  have hunit : (2 : ℚ) ^ 149 ≠ 0 := by positivity
  generalize (2 : ℚ) ^ 149 = unit at *
  field_simp
  rw [hq]

theorem fdiv_exact (hz : isZero b = false) (h : mag a * 2 ^ 149 = magOfLow low * mag b) :
    fdiv a b = pack (signBit a != signBit b) low := by
  rw [fdiv_of_finite ha hb hz, h, roundMag_exact (mag_pos_of_not_zero hz) hlow]

theorem value_fdiv_exact (hz : isZero b = false) (h : mag a * 2 ^ 149 = magOfLow low * mag b) :
    value (fdiv a b) = value a / value b := by
  have hne : (mag b : ℚ) ≠ 0 := Nat.cast_ne_zero.mpr (mag_pos_of_not_zero hz).ne'
  have hq : (mag a : ℚ) * 2 ^ 149 = magOfLow low * mag b := by exact_mod_cast h
  have hsign := sign_pow_mul_self (signBit b)
  have hne' : (-1 : ℚ) ^ (signBit b).toNat ≠ 0 := left_ne_zero_of_mul_eq_one hsign
  rw [fdiv_exact ha hb hlow hz h, value_pack _ (by omega), value_eq_mag a, value_eq_mag b, sign_pow_bne]
  have hunit : (2 : ℚ) ^ 149 ≠ 0 := by positivity
  generalize (2 : ℚ) ^ 149 = unit at *
  generalize (-1 : ℚ) ^ (signBit b).toNat = sign at *
  field_simp
  linear_combination (magOfLow low * mag b : ℚ) * hsign - hq

end

/-! ### Infinities and NaNs (R186, R187) -/

theorem isNan_of_inf {a : Word} (h : isInf a = true) : isNan a = false := by
  obtain ⟨-, hfrac⟩ := (isInf_iff a).mp h
  rw [← Bool.not_eq_true, isNan_iff]
  omega

theorem isZero_of_inf {a : Word} (h : isInf a = true) : isZero a = false := by
  obtain ⟨hex, -⟩ := (isInf_iff a).mp h
  rw [← Bool.not_eq_true, isZero_iff]
  omega

theorem isNan_of_zero {a : Word} (h : isZero a = true) : isNan a = false := by
  obtain ⟨hex, -⟩ := (isZero_iff a).mp h
  rw [← Bool.not_eq_true, isNan_iff]
  omega

/-- An infinity times a number that is not zero. -/
theorem fmul_of_inf {a b : Word} (ha : isInf a = true) (hb : isFinite b = true) (hz : isZero b = false) :
    fmul a b = pack (signBit a != signBit b) 0x7F800000 := by
  simp [fmul, ha, isNan_of_inf ha, isZero_of_inf ha, isNan_of_finite hb, isInf_of_finite hb, hz]

/-- The invalid operation of R186. -/
theorem fmul_of_inf_zero {a b : Word} (ha : isInf a = true) (hb : isZero b = true) : fmul a b = defaultNan := by
  simp [fmul, ha, hb, isNan_of_inf ha, isNan_of_zero hb]

/-- A number divided by an infinity is a zero. -/
theorem fdiv_of_inf {a b : Word} (ha : isFinite a = true) (hb : isInf b = true) :
    fdiv a b = pack (signBit a != signBit b) 0 := by
  simp [fdiv, isNan_of_finite ha, isInf_of_finite ha, hb, isNan_of_inf hb, isZero_of_inf hb]

theorem isNan_fmul {a b : Word} (h : isNan a = true ∨ isNan b = true) : isNan (fmul a b) = true := by
  have hor : (isNan a || isNan b) = true := Bool.or_eq_true_iff.mpr h
  simp only [fmul, hor, if_true, isNan_asNan]

theorem isNan_fdiv {a b : Word} (h : isNan a = true ∨ isNan b = true) : isNan (fdiv a b) = true := by
  have hor : (isNan a || isNan b) = true := Bool.or_eq_true_iff.mpr h
  simp only [fdiv, hor, if_true, isNan_asNan]

@[simp] theorem isNan_defaultNan : isNan defaultNan = true := isNan_asNan _

/-! ### A magnitude times a power of two -/

theorem exists_low_double (low : Nat) : ∃ low', magOfLow low' = magOfLow low * 2 := by
  obtain ⟨shift, r, -, hr, hbig, hmag⟩ := exists_count low
  rcases Nat.lt_or_ge r (2 ^ 23) with hsub | hnorm
  · have hshift : shift = 0 := by omega
    refine ⟨0 * 2 ^ 23 + r * 2, ?_⟩
    rw [magOfLow_count (by omega) (.inl rfl), hmag, hshift, pow_zero, Nat.mul_one, Nat.mul_one]
  · refine ⟨(shift + 1) * 2 ^ 23 + r, ?_⟩
    rw [magOfLow_count hr.le (.inr hnorm), hmag, pow_succ, Nat.mul_assoc]

/-- With no bound on the exponent field, scaling a magnitude up needs no rounding. -/
theorem exists_low_scaled (low k : Nat) : ∃ low', magOfLow low' = magOfLow low * 2 ^ k := by
  induction k with
  | zero => exact ⟨low, (Nat.mul_one _).symm⟩
  | succ k ih =>
    obtain ⟨low', h⟩ := ih
    obtain ⟨low'', h'⟩ := exists_low_double low'
    exact ⟨low'', by rw [h', h, pow_succ, Nat.mul_assoc]⟩

/-- Every magnitude below 2^24 units is a pattern. -/
theorem exists_low_of_small {r : Nat} (hr : r ≤ 2 ^ 24) : ∃ low, magOfLow low = r :=
  ⟨0 * 2 ^ 23 + r, by rw [magOfLow_count hr (.inl rfl), pow_zero, Nat.mul_one]⟩

/-- The magnitudes below 2^128, that is 2^128 * 2^149 units, are those of the finite patterns. -/
theorem magOfLow_lt_iff (low : Nat) : magOfLow low < 2 ^ 128 * 2 ^ 149 ↔ low < 0x7F800000 := by
  have hinf : magOfLow 0x7F800000 = 2 ^ 128 * 2 ^ 149 := by norm_num [magOfLow]
  rw [← hinf, magOfLow_strictMono.lt_iff_lt]

/-- Fewer than 2^24 units round to at most 2^24 units. -/
theorem magOfLow_roundMag_le {n d : Nat} (hd : 0 < d) (hn : n < 2 ^ 24 * d) :
    magOfLow (roundMag n d) ≤ 2 ^ 24 := by
  obtain ⟨shift, r, -, hr, -, hbig, hround⟩ := roundMag_cases n hd
  have hshift : shift = 0 := by
    rcases hbig with h | ⟨-, hge⟩
    · exact h
    · by_contra hne
      have htwo : d * 2 ≤ d * 2 ^ shift :=
        Nat.mul_le_mul_left d (Nat.le_self_pow hne 2)
      omega
  have hcount : roundMag n d = 0 * 2 ^ 23 + r := by rw [hround, hshift]; omega
  rw [hcount, magOfLow_count hr (.inl rfl), pow_zero, Nat.mul_one]
  exact hr

section
variable {low k : Nat}

/-- A magnitude times `2^(k - 149)` that stays below 2^128: the result is finite and has the whole part of
the exact product, since what is rounded is less than 2^24 units. -/
theorem roundMag_scaled (h : magOfLow low * 2 ^ k < 2 ^ 128 * 2 ^ 149 * 2 ^ 149) :
    roundMag (magOfLow low * 2 ^ k) (2 ^ 149) < 0x7F800000 ∧
      magOfLow (roundMag (magOfLow low * 2 ^ k) (2 ^ 149)) / 2 ^ 149 = magOfLow low * 2 ^ k / (2 ^ 149 * 2 ^ 149) := by
  rcases Nat.lt_or_ge (magOfLow low * 2 ^ k) (2 ^ 24 * 2 ^ 149) with hsmall | hlarge
  · have hle := magOfLow_roundMag_le (by positivity) hsmall
    refine ⟨(magOfLow_lt_iff _).mp (by omega), ?_⟩
    rw [Nat.div_eq_of_lt (by omega), Nat.div_eq_of_lt (by omega)]
  · obtain ⟨shift, r, -, hr, -, hmag⟩ := exists_count low
    have hexp : 149 ≤ shift + k := by
      by_contra hlt
      have hle : magOfLow low * 2 ^ k ≤ r * 2 ^ 149 := by
        rw [hmag, Nat.mul_assoc, ← pow_add]
        exact Nat.mul_le_mul_left r (Nat.pow_le_pow_right (by decide) (by omega))
      omega
    obtain ⟨rlow, hrlow⟩ := exists_low_of_small hr.le
    obtain ⟨low', hlow'⟩ := exists_low_scaled rlow (shift + k - 149)
    have hprod : magOfLow low * 2 ^ k = magOfLow low' * 2 ^ 149 := by
      rw [hlow', hrlow, hmag, Nat.mul_assoc, Nat.mul_assoc, ← pow_add, ← pow_add, Nat.sub_add_cancel hexp]
    have hfin : low' < 0x7F800000 := (magOfLow_lt_iff _).mp (by omega)
    rw [hprod, roundMag_exact (by positivity) hfin]
    exact ⟨hfin, by omega⟩

/-- From 2^128 on it is +infinity. -/
theorem roundMag_scaled_overflow (h : 2 ^ 128 * 2 ^ 149 * 2 ^ 149 ≤ magOfLow low * 2 ^ k) :
    roundMag (magOfLow low * 2 ^ k) (2 ^ 149) = 0x7F800000 :=
  (roundMag_infinite_iff _ (by positivity)).mpr (by omega)

end

/-! ### Truncation and the byte cast (R190) -/

theorem truncate_of_nonneg {q : ℚ} (h : 0 ≤ q) : truncate q = ⌊q⌋ := if_pos h

theorem truncate_neg (q : ℚ) : truncate (-q) = -truncate q := by
  rcases lt_trichotomy q 0 with h | rfl | h
  · rw [truncate_of_nonneg (by linarith), truncate, if_neg (by linarith), Int.floor_neg]
  · simp [truncate]
  · rw [truncate, if_neg (by linarith), truncate_of_nonneg h.le, Int.ceil_neg]

/-- The whole part of a signed quotient is the signed whole quotient. -/
theorem truncate_signed (sign : Bool) (n d : Nat) :
    truncate ((-1) ^ sign.toNat * ((n : ℚ) / d)) =
      if sign then -((n / d : Nat) : Int) else ((n / d : Nat) : Int) := by
  have hfloor : truncate ((n : ℚ) / d) = ((n / d : Nat) : Int) := by
    rw [truncate_of_nonneg (by positivity)]
    exact Rat.floor_natCast_div_natCast n d
  cases sign with
  | false => simpa using hfloor
  | true => simp [truncate_neg, hfloor]

theorem f2u8_of_nan {a : Word} (h : isNan a = true) : f2u8 a = Config.f2u8NonFinite .nan := by
  rw [f2u8, if_pos h]

theorem f2u8_of_finite {a : Word} (h : isFinite a = true) : f2u8 a = BitVec.ofInt 8 (truncate (value a)) := by
  have hcast : ((2 ^ 149 : Nat) : ℚ) = 2 ^ 149 := Nat.cast_pow 2 149
  rw [value_eq_mag, mul_div_assoc, ← hcast, truncate_signed]
  simp [f2u8, isNan_of_finite h, isInf_of_finite h]

theorem f2u8_of_infinity (sign : Bool) :
    f2u8 (pack sign 0x7F800000) = Config.f2u8NonFinite (if sign then .negInf else .posInf) := by
  have hnan : isNan (pack sign 0x7F800000) = false := by cases sign <;> decide
  simp only [f2u8, hnan, isInf_pack, signBit_pack sign (by decide : 0x7F800000 < 2 ^ 31), Bool.false_eq_true,
    if_false, if_true]

theorem f2u8_of_zero (sign : Bool) : f2u8 (pack sign 0) = 0 := by
  have hzero : value (pack sign 0) = 0 := by rw [value_pack sign (by decide)]; simp [magOfLow]
  rw [f2u8_of_finite (isFinite_pack sign (by decide)), hzero]
  simp [truncate]

end Sys2Proof.Machine
end

section
/-! The pixel of `ENC` (R161 to R164, R170): the factor is a power of two, the colour bytes are truncated
scaled components, and the exponent byte is the exponent field of the maximum plus 2. -/

namespace Sys2Proof.Machine

/-! ### The components of an encoded pixel (R161) -/

/-- A colour byte of R161: component `c` scaled by the factor of the maximum `m`. -/
def encColour (m c : Word) : Byte := f2u8 (fmul c (encFactor m))

theorem encPx_of_below {r g b : Word} (h : ltThresh (max3 r g b) = true) : encPx r g b = ⟨0, 0, 0, 0⟩ := by
  rw [encPx, if_pos h]

/-- The exponent byte of R161, `x + 128`, in terms of the exponent field. -/
theorem ofInt_fxeExponent_add (m : Word) :
    BitVec.ofInt 8 (fxeExponent m + 128) = BitVec.ofNat 8 ((ex m).toNat + 2) := by
  have hsum : fxeExponent m + 128 = (((ex m).toNat + 2 : Nat) : Int) := by
    rw [Nat.cast_add, ex_eq_fxeExponent_add]
    ring
  rw [hsum, BitVec.ofInt_natCast]

section
variable {r g b : Word} (h : ltThresh (max3 r g b) = false)
include h

theorem encPx_of_passing : encPx r g b =
    ⟨encColour (max3 r g b) r, encColour (max3 r g b) g, encColour (max3 r g b) b,
      BitVec.ofNat 8 ((ex (max3 r g b)).toNat + 2)⟩ := by
  have hnot : ¬ ltThresh (max3 r g b) = true := by rw [h]; exact Bool.false_ne_true
  rw [encPx, if_neg hnot, ofInt_fxeExponent_add]
  rfl

/-- The three colours are encoded alike. -/
theorem encodedColours_eq : [(r, (encPx r g b).r), (g, (encPx r g b).g), (b, (encPx r g b).b)] =
    [r, g, b].map fun c => (c, encColour (max3 r g b) c) := by
  rw [encPx_of_passing h]
  rfl

theorem encPx_e_toNat : (encPx r g b).e.toNat = ((ex (max3 r g b)).toNat + 2) % 256 := by
  rw [encPx_of_passing h]
  exact BitVec.toNat_ofNat _ _

/-- The exponent byte of a maximum of 2^127 or more wraps to the zero sentinel (R164). -/
theorem encPx_e_of_ex_254 (hex : (ex (max3 r g b)).toNat = 254) : (encPx r g b).e = 0 :=
  BitVec.eq_of_toNat_eq (by rw [encPx_e_toNat h, hex]; rfl)

theorem encPx_e_of_ex_255 (hex : (ex (max3 r g b)).toNat = 255) : (encPx r g b).e = 1 :=
  BitVec.eq_of_toNat_eq (by rw [encPx_e_toNat h, hex]; rfl)

end

/-! ### Components scaled by `2^(8 - x)` (R163) -/

/-- `2^(8 - x)` in units of the least subnormal. -/
theorem zpow_eq_units (m : Word) : (2 : ℚ) ^ (8 - fxeExponent m) = 2 ^ (283 - (ex m).toNat) / 2 ^ 149 := by
  have hlt := ex_lt m
  have hexp : 8 - fxeExponent m = ((283 - (ex m).toNat : Nat) : Int) - ((149 : Nat) : Int) := by
    rw [fxeExponent]
    omega
  rw [hexp, zpow_sub₀ two_ne_zero, zpow_natCast, zpow_natCast]

/-- The scaled component of R163, a signed quotient of whole numbers. -/
theorem scaled_value_eq (m c : Word) : value c * (2 : ℚ) ^ (8 - fxeExponent m) =
    (-1) ^ (signBit c).toNat *
      (((magOfLow (c.toNat % 2 ^ 31) * 2 ^ (283 - (ex m).toNat) : Nat) : ℚ) / ((2 ^ 149 * 2 ^ 149 : Nat) : ℚ)) := by
  rw [zpow_eq_units, value_eq_mag, mag_eq_magOfLow]
  push_cast
  ring

theorem abs_scaled_value_lt_iff (m c : Word) :
    |value c * (2 : ℚ) ^ (8 - fxeExponent m)| < 2 ^ 128 ↔
      magOfLow (c.toNat % 2 ^ 31) * 2 ^ (283 - (ex m).toNat) < 2 ^ 128 * 2 ^ 149 * 2 ^ 149 := by
  have hunits : (2 : ℚ) ^ 128 * ((2 ^ 149 * 2 ^ 149 : Nat) : ℚ) = ((2 ^ 128 * 2 ^ 149 * 2 ^ 149 : Nat) : ℚ) := by
    norm_num
  rw [scaled_value_eq, abs_signed _ (by positivity), div_lt_iff₀ (by positivity), hunits, Nat.cast_lt]

/-- The maximum, with `x` taken away from its exponent, is the mantissa of `FXE`. -/
theorem scaled_max_eq {m : Word} (h : 1 ≤ (ex m).toNat) :
    value m * (2 : ℚ) ^ (8 - fxeExponent m) = value (fxeMantissa m) * 256 := by
  have hcancel : (2 : ℚ) ^ fxeExponent m * 2 ^ (-fxeExponent m) = 1 := by
    rw [← zpow_add₀ two_ne_zero, Int.add_right_neg, zpow_zero]
  have hscale : (2 : ℚ) ^ (8 : ℤ) = 256 := by norm_num
  rw [value_eq_fxeMantissa_mul h, Int.sub_eq_add_neg, zpow_add₀ two_ne_zero, hscale]
  linear_combination 256 * value (fxeMantissa m) * hcancel

theorem scaled_max_bounds {m : Word} (h : 1 ≤ (ex m).toNat) (hsign : signBit m = false) :
    128 ≤ value m * (2 : ℚ) ^ (8 - fxeExponent m) ∧
    value m * (2 : ℚ) ^ (8 - fxeExponent m) < 256 := by
  obtain ⟨hhalf, hone⟩ := value_fxeMantissa_of_positive hsign
  rw [scaled_max_eq h]
  constructor <;> linarith

theorem scaled_value_bounds {m c : Word} (h : 1 ≤ (ex m).toNat) (hsign : signBit m = false)
    (hnonneg : 0 ≤ value c) (hle : value c ≤ value m) :
    0 ≤ value c * (2 : ℚ) ^ (8 - fxeExponent m) ∧ value c * (2 : ℚ) ^ (8 - fxeExponent m) < 256 := by
  have hpos : (0 : ℚ) ≤ 2 ^ (8 - fxeExponent m) := zpow_nonneg two_pos.le _
  exact ⟨mul_nonneg hnonneg hpos,
    (mul_le_mul_of_nonneg_right hle hpos).trans_lt (scaled_max_bounds h hsign).2⟩

/-! ### The factor (R162) -/

theorem isFinite_fxeMantissa (m : Word) : isFinite (fxeMantissa m) = true := by
  rw [isFinite, ex_fxeMantissa]
  rfl

theorem mag_fxeMantissa (m : Word) : mag (fxeMantissa m) = (2 ^ 23 + (fracField m).toNat) * 2 ^ 125 := by
  rw [mag, ex_fxeMantissa, fracField_fxeMantissa]
  rfl

/-- The magnitude of a normal pattern, by its exponent field and its fraction. -/
theorem magOfLow_of_fields {e f : Nat} (he : 1 ≤ e) (hf : f < 2 ^ 23) :
    magOfLow (e * 2 ^ 23 + f) = (2 ^ 23 + f) * 2 ^ (e - 1) := by
  have hdiv : (e * 2 ^ 23 + f) / 2 ^ 23 = e := by omega
  have hmod : (e * 2 ^ 23 + f) % 2 ^ 23 = f := by omega
  rw [magOfLow, hdiv, hmod, if_neg (by omega)]

theorem mag_of_ex_pos {m : Word} (h : 1 ≤ (ex m).toNat) :
    mag m = (2 ^ 23 + (fracField m).toNat) * 2 ^ ((ex m).toNat - 1) := by
  rw [mag_eq, if_neg (by omega)]

theorem isZero_of_ex_pos {m : Word} (h : 1 ≤ (ex m).toNat) : isZero m = false := by
  rw [← Bool.not_eq_true, isZero_iff]
  omega

theorem mag_c256 : mag c256 = 2 ^ 157 := by decide

theorem signBit_c256 : signBit c256 = false := by decide

/-- The mantissa has exponent field 126, and 256.0 adds 8 to it. -/
theorem mag_fxeMantissa_mul_c256 (m : Word) :
    mag (fxeMantissa m) * mag c256 = magOfLow (134 * 2 ^ 23 + (fracField m).toNat) * 2 ^ 149 := by
  rw [mag_fxeMantissa, mag_c256, magOfLow_of_fields (by decide) (frac_lt m)]
  ring

theorem scaledMantissa_low_lt (m : Word) : 134 * 2 ^ 23 + (fracField m).toNat < 0x7F800000 := by
  have hfrac := frac_lt m
  omega

/-- The dividend of R161, exact for every pattern. -/
theorem fmul_fxeMantissa_c256 (m : Word) :
    fmul (fxeMantissa m) c256 = pack (signBit m) (134 * 2 ^ 23 + (fracField m).toNat) := by
  rw [fmul_exact (isFinite_fxeMantissa m) (by decide) (scaledMantissa_low_lt m) (mag_fxeMantissa_mul_c256 m),
    signBit_fxeMantissa, signBit_c256, Bool.bne_false]

theorem value_fmul_fxeMantissa_c256 (m : Word) :
    value (fmul (fxeMantissa m) c256) = value (fxeMantissa m) * 256 := by
  have hc256 : value c256 = 256 := by
    rw [value_eq_mag, mag_c256, signBit_c256]
    norm_num
  rw [value_fmul_exact (isFinite_fxeMantissa m) (by decide) (scaledMantissa_low_lt m)
    (mag_fxeMantissa_mul_c256 m), hc256]

theorem signBit_fmul_fxeMantissa_c256 (m : Word) : signBit (fmul (fxeMantissa m) c256) = signBit m := by
  have hlow := scaledMantissa_low_lt m
  rw [fmul_fxeMantissa_c256, signBit_pack _ (by omega)]

theorem isFinite_fmul_fxeMantissa_c256 (m : Word) : isFinite (fmul (fxeMantissa m) c256) = true := by
  rw [fmul_fxeMantissa_c256]
  exact isFinite_pack _ (scaledMantissa_low_lt m)

section
variable {m : Word} (hlo : 20 ≤ (ex m).toNat) (hhi : (ex m).toNat ≤ 254)
include hlo hhi

/-- Dividend and divisor have the same significand, so the quotient is a power of two. -/
theorem mag_dividend_eq : mag (fmul (fxeMantissa m) c256) * 2 ^ 149 =
    magOfLow ((261 - (ex m).toNat) * 2 ^ 23) * mag m := by
  have hpow : 2 ^ (261 - (ex m).toNat - 1) * 2 ^ ((ex m).toNat - 1) = 2 ^ 133 * 2 ^ 126 := by
    rw [← pow_add, ← pow_add]
    congr 1
    omega
  have hquot := magOfLow_of_fields (e := 261 - (ex m).toNat) (f := 0) (by omega) (by decide)
  have hdividend := scaledMantissa_low_lt m
  rw [Nat.add_zero, Nat.add_zero] at hquot
  rw [fmul_fxeMantissa_c256, mag_pack _ (by omega), magOfLow_of_fields (by decide) (frac_lt m), hquot,
    mag_of_ex_pos (by omega)]
  calc (2 ^ 23 + (fracField m).toNat) * 2 ^ (134 - 1) * 2 ^ 149
    _ = (2 ^ 23 + (fracField m).toNat) * 2 ^ 23 * (2 ^ 133 * 2 ^ 126) := by ring
    _ = (2 ^ 23 + (fracField m).toNat) * 2 ^ 23 *
        (2 ^ (261 - (ex m).toNat - 1) * 2 ^ ((ex m).toNat - 1)) := by rw [hpow]
    _ = _ := by ring

theorem encFactor_eq_pack : encFactor m = pack false ((261 - (ex m).toNat) * 2 ^ 23) := by
  rw [encFactor, fdiv_exact (isFinite_fmul_fxeMantissa_c256 m) ((isFinite_iff m).mpr hhi) (by omega)
    (isZero_of_ex_pos (by omega)) (mag_dividend_eq hlo hhi), signBit_fmul_fxeMantissa_c256,
    bne_self_eq_false]

theorem value_encFactor_quotient : value (encFactor m) = value (fmul (fxeMantissa m) c256) / value m :=
  value_fdiv_exact (isFinite_fmul_fxeMantissa_c256 m) ((isFinite_iff m).mpr hhi) (by omega)
    (isZero_of_ex_pos (by omega)) (mag_dividend_eq hlo hhi)

theorem encFactor_eq_shift : encFactor m = (BitVec.ofNat 32 (261 - (ex m).toNat)) <<< 23 := by
  apply BitVec.eq_of_toNat_eq
  rw [encFactor_eq_pack hlo hhi, pack_toNat _ (by omega), BitVec.toNat_shiftLeft, BitVec.toNat_ofNat,
    Nat.shiftLeft_eq, Bool.toNat_false]
  omega

theorem mag_encFactor : mag (encFactor m) = 2 ^ (283 - (ex m).toNat) := by
  have hfields := magOfLow_of_fields (e := 261 - (ex m).toNat) (f := 0) (by omega) (by decide)
  rw [encFactor_eq_pack hlo hhi, mag_pack _ (by omega), ← Nat.add_zero (_ * _), hfields, Nat.add_zero, ← pow_add]
  congr 1
  omega

theorem signBit_encFactor : signBit (encFactor m) = false := by
  rw [encFactor_eq_pack hlo hhi, signBit_pack _ (by omega)]

theorem isFinite_encFactor : isFinite (encFactor m) = true := by
  rw [encFactor_eq_pack hlo hhi, isFinite_pack _ (by omega)]

theorem isZero_encFactor : isZero (encFactor m) = false := by
  rw [← Bool.not_eq_true, ← mag_eq_zero_iff, mag_encFactor hlo hhi]
  positivity

theorem value_encFactor : value (encFactor m) = (2 : ℚ) ^ (8 - fxeExponent m) := by
  rw [value_eq_mag, signBit_encFactor hlo hhi, mag_encFactor hlo hhi, zpow_eq_units]
  simp

/-! ### The colour bytes (R163) -/

theorem fmul_encFactor {c : Word} (hc : isFinite c = true) : fmul c (encFactor m) =
    pack (signBit c) (roundMag (magOfLow (c.toNat % 2 ^ 31) * 2 ^ (283 - (ex m).toNat)) (2 ^ 149)) := by
  rw [fmul_of_finite hc (isFinite_encFactor hlo hhi), signBit_encFactor hlo hhi, mag_encFactor hlo hhi,
    mag_eq_magOfLow, Bool.bne_false]

theorem encColour_of_lt {c : Word} (hc : isFinite c = true)
    (hlt : |value c * (2 : ℚ) ^ (8 - fxeExponent m)| < 2 ^ 128) :
    encColour m c = BitVec.ofInt 8 (truncate (value c * (2 : ℚ) ^ (8 - fxeExponent m))) := by
  obtain ⟨hfin, hwhole⟩ := roundMag_scaled ((abs_scaled_value_lt_iff m c).mp hlt)
  have hcast : ((2 ^ 149 : Nat) : ℚ) = 2 ^ 149 := Nat.cast_pow 2 149
  rw [encColour, fmul_encFactor hlo hhi hc, f2u8_of_finite (isFinite_pack _ hfin), value_pack _ (by omega),
    mul_div_assoc, ← hcast, truncate_signed, hwhole, scaled_value_eq, truncate_signed]

theorem encColour_of_ge {c : Word} (hc : isFinite c = true)
    (hge : 2 ^ 128 ≤ |value c * (2 : ℚ) ^ (8 - fxeExponent m)|) :
    encColour m c = Config.f2u8NonFinite (if signBit c then .negInf else .posInf) := by
  have hbig := not_lt.mp (mt (abs_scaled_value_lt_iff m c).mpr (not_lt.mpr hge))
  rw [encColour, fmul_encFactor hlo hhi hc, roundMag_scaled_overflow hbig, f2u8_of_infinity]

/-- Only a negative component overflows, since the maximum bounds the others. -/
theorem encColour_overflow {c : Word} (hsign : signBit m = false) (hc : isFinite c = true)
    (hle : value c ≤ value m) (hge : 2 ^ 128 ≤ |value c * (2 : ℚ) ^ (8 - fxeExponent m)|) :
    value c * (2 : ℚ) ^ (8 - fxeExponent m) < 0 ∧ encColour m c = Config.f2u8NonFinite .negInf := by
  have hneg : value c < 0 := by
    by_contra hnonneg
    obtain ⟨hlow, hhigh⟩ := scaled_value_bounds (by omega) hsign (not_lt.mp hnonneg) hle
    rw [abs_of_nonneg hlow] at hge
    exact absurd (hge.trans_lt hhigh) (by norm_num)
  refine ⟨mul_neg_of_neg_of_pos hneg (zpow_pos two_pos _), ?_⟩
  rw [encColour_of_ge hlo hhi hc hge, signBit_of_value_neg hneg, if_pos rfl]

theorem encColour_negInf : encColour m 0xFF800000 = Config.f2u8NonFinite .negInf := by
  have hsign : signBit 0xFF800000 = true := by decide
  rw [encColour, fmul_of_inf (by decide) (isFinite_encFactor hlo hhi) (isZero_encFactor hlo hhi), hsign,
    signBit_encFactor hlo hhi, f2u8_of_infinity]
  rfl

variable (hsign : signBit m = false)
include hsign

/-- The byte of a component that is not negative does not wrap. -/
theorem encColour_eq_floor {c : Word} (hc : isFinite c = true) (hnonneg : 0 ≤ value c) (hle : value c ≤ value m) :
    ((encColour m c).toNat : Int) = ⌊value c * (2 : ℚ) ^ (8 - fxeExponent m)⌋ := by
  obtain ⟨hlow, hhigh⟩ := scaled_value_bounds (by omega) hsign hnonneg hle
  have hlt : |value c * (2 : ℚ) ^ (8 - fxeExponent m)| < 2 ^ 128 := by
    rw [abs_of_nonneg hlow]
    exact hhigh.trans (by norm_num)
  have hfloor0 := Int.floor_nonneg.mpr hlow
  have hfloor256 : ⌊value c * (2 : ℚ) ^ (8 - fxeExponent m)⌋ < 256 := Int.floor_lt.mpr (by exact_mod_cast hhigh)
  rw [encColour_of_lt hlo hhi hc hlt, truncate_of_nonneg hlow, BitVec.toNat_ofInt]
  omega

theorem le_encColour_max : 128 ≤ (encColour m m).toNat := by
  obtain ⟨hge, -⟩ := scaled_max_bounds (by omega) hsign
  have hbyte := encColour_eq_floor hlo hhi hsign ((isFinite_iff m).mpr hhi) (value_nonneg_of_sign (.inl hsign))
    le_rfl
  have hfloor : (128 : Int) ≤ ⌊value m * (2 : ℚ) ^ (8 - fxeExponent m)⌋ :=
    Int.le_floor.mpr (by exact_mod_cast hge)
  omega

end

/-! ### A maximum that is not finite (R170) -/

theorem encFactor_of_pinf : encFactor 0x7F800000 = 0 := by
  rw [encFactor, fdiv_of_inf (isFinite_fmul_fxeMantissa_c256 _) (by decide), signBit_fmul_fxeMantissa_c256]
  decide

theorem isNan_encFactor {m : Word} (h : isNan m = true) : isNan (encFactor m) = true := isNan_fdiv (.inr h)

theorem encColour_of_nan {m c : Word} (h : isNan m = true ∨ isNan c = true) :
    encColour m c = Config.f2u8NonFinite .nan :=
  f2u8_of_nan (isNan_fmul (h.symm.imp_right isNan_encFactor))

theorem encColour_pinf_of_finite {c : Word} (hc : isFinite c = true) : encColour 0x7F800000 c = 0 := by
  have hzero : mag 0 = 0 := by decide
  have hround : roundMag 0 (2 ^ 149) = 0 := by
    have hexact := roundMag_exact (d := 2 ^ 149) (low := 0) (by positivity) (by decide)
    rwa [show magOfLow 0 = 0 from rfl, Nat.zero_mul] at hexact
  rw [encColour, encFactor_of_pinf, fmul_of_finite hc (by decide), hzero, Nat.mul_zero, hround, f2u8_of_zero]

/-- An infinity times the factor +0.0 is the invalid operation of R186. -/
theorem encColour_pinf_of_inf {c : Word} (hc : isInf c = true) :
    encColour 0x7F800000 c = Config.f2u8NonFinite .nan := by
  rw [encColour, encFactor_of_pinf, fmul_of_inf_zero hc (by decide), f2u8_of_nan isNan_defaultNan]

end Sys2Proof.Machine
end

section
/-! A pixel encoded and decoded again (R172). -/

namespace Sys2Proof.Machine

/-! ### A maximum of 2^127 or more -/

/-- The patterns of the finite numbers from 2^127 on. -/
theorem ex_eq_254_of_range {m : Word} (hlo : 0x7F000000 ≤ m.toNat) (hhi : m.toNat < 0x7F800000) :
    (ex m).toNat = 254 := by
  rw [ex_toNat]
  omega

theorem ltThresh_of_range {m : Word} (hlo : 0x7F000000 ≤ m.toNat) (hhi : m.toNat < 0x7F800000) :
    ltThresh m = false := by
  have hfin : isFinite m = true := by rw [isFinite_iff, ex_eq_254_of_range hlo hhi]
  rw [ltThresh_eq_false_iff (isNan_of_finite hfin), signBit_eq, decide_eq_false_iff_not]
  omega

/-! ### The colours of a maximum from the threshold to below 2^127 -/

/-- A decoded colour as a number, for an exponent byte that does not wrap (R143). -/
theorem value_colour (n : Byte) {e : Byte} (he : 10 ≤ e.toNat) :
    value (fmul (u8ToF32 n) (decScale e)) = n.toNat * (2 : ℚ) ^ ((e.toNat : Int) - 136) := by
  rcases Nat.eq_zero_or_pos n.toNat with h | h
  · rw [colour_of_zero (by omega) (.inl h), value_of_zero (by decide), h, Nat.cast_zero, zero_mul]
  · exact (colour_of_no_wrap h he).2

/-- `2^(8 - x)` undoes the quantum `2^(x - 8)`. -/
theorem mul_zpow_eq_div_quantum (y : ℚ) (x : Int) : y * (2 : ℚ) ^ (8 - x) = y / 2 ^ (x - 8) := by
  rw [div_eq_mul_inv, ← zpow_neg, neg_sub]

/-- The quantum is between 1/256 and 1/128 of the maximum, whose mantissa is between 1/2 and 1. -/
theorem quantum_bounds {m : Word} (h : 1 ≤ (ex m).toNat) (hsign : signBit m = false) :
    (2 : ℚ) ^ (fxeExponent m - 8) ≤ value m / 128 ∧ value m / 256 < (2 : ℚ) ^ (fxeExponent m - 8) := by
  have hpos : (0 : ℚ) < 2 ^ (fxeExponent m - 8) := zpow_pos two_pos _
  obtain ⟨hge, hlt⟩ := scaled_max_bounds h hsign
  rw [mul_zpow_eq_div_quantum, le_div_iff₀ hpos] at hge
  rw [mul_zpow_eq_div_quantum, div_lt_iff₀ hpos] at hlt
  constructor <;> linarith

section
variable {r g b : Word} (h : ltThresh (max3 r g b) = false) (hhi : (ex (max3 r g b)).toNat ≤ 253)
include h hhi

/-- The exponent byte does not wrap (R164). -/
theorem encPx_e_of_le : (encPx r g b).e.toNat = (ex (max3 r g b)).toNat + 2 := by
  rw [encPx_e_toNat h]
  omega

theorem encPx_e_eq_fxeExponent : ((encPx r g b).e.toNat : Int) = fxeExponent (max3 r g b) + 128 := by
  have hex := ex_eq_fxeExponent_add (max3 r g b)
  rw [encPx_e_of_le h hhi]
  omega

theorem le_encPx_e : 22 ≤ (encPx r g b).e.toNat := by
  have hlo := ex_of_passing h
  rw [encPx_e_of_le h hhi]
  omega

theorem encPx_e_ne_zero : (encPx r g b).e ≠ 0 := by
  intro hzero
  have hle := le_encPx_e h hhi
  rw [hzero] at hle
  exact absurd hle (by decide)

/-- Each colour is encoded and decoded on its own, under the one maximum. -/
theorem decodedColours_eq :
    [(r, (decPx (encPx r g b)).r), (g, (decPx (encPx r g b)).g), (b, (decPx (encPx r g b)).b)] =
      [r, g, b].map fun c => (c, fmul (u8ToF32 (encColour (max3 r g b) c)) (decScale (encPx r g b).e)) := by
  have hcolours : (encPx r g b).r = encColour (max3 r g b) r ∧ (encPx r g b).g = encColour (max3 r g b) g ∧
      (encPx r g b).b = encColour (max3 r g b) b := by rw [encPx_of_passing h]; exact ⟨rfl, rfl, rfl⟩
  obtain ⟨hr, hg, hb⟩ := hcolours
  rw [decPx, if_neg (encPx_e_ne_zero h hhi), hr, hg, hb]
  rfl

/-- A component that is not negative is rounded down to a multiple of `2^(x - 8)`. -/
theorem value_roundTrip {c : Word} (hsign : signBit (max3 r g b) = false) (hc : isFinite c = true)
    (hnonneg : 0 ≤ value c) (hle : value c ≤ value (max3 r g b)) :
    value (fmul (u8ToF32 (encColour (max3 r g b) c)) (decScale (encPx r g b).e)) =
      ⌊value c / (2 : ℚ) ^ (fxeExponent (max3 r g b) - 8)⌋ * (2 : ℚ) ^ (fxeExponent (max3 r g b) - 8) := by
  have hbyte := encColour_eq_floor (ex_of_passing h) (by omega) hsign hc hnonneg hle
  have hcast : ((encColour (max3 r g b) c).toNat : ℚ) =
      ⌊value c * (2 : ℚ) ^ (8 - fxeExponent (max3 r g b))⌋ := by exact_mod_cast hbyte
  have hscale : fxeExponent (max3 r g b) + 128 - 136 = fxeExponent (max3 r g b) - 8 := by ring
  have hten := le_encPx_e h hhi
  rw [value_colour _ (by omega), encPx_e_eq_fxeExponent h hhi, hcast, hscale, mul_zpow_eq_div_quantum]

end

end Sys2Proof.Machine
end

section
/-! The statements about the encoder (spec/44_encode.md). -/

namespace Sys2Proof.Settled
open Sys2Proof.Machine

/-- Settles O32: the loop's result by pixel and component, the trailing elements, and the frame. -/
theorem encodeBufferResult : Obligations.EncodeBufferResult := by
  unfold Obligations.EncodeBufferResult
  intro s hb hch hpb huf
  have hd : decode (sample (encode .enc) s).cmd = .ok .enc := decode_encode .enc
  have hcount := pixelCount_sample_enc hch
  have hencCount := (pixelCount_enc hd).symm.trans hcount
  have hs : sizesSuffice (sample (encode .enc) s) s = true := by
    rw [sizesSuffice_iff, elementsPb, elementsUf, hcount]
    exact ⟨hpb, huf⟩
  refine ⟨_, exec_of_ready hb hs, fun p k hp hk => ?_, fun i hi => ?_, ?_, ?_⟩
  · exact readPb_operationWork_enc_component hd (begin (encode .enc) s) (hp.trans_eq hcount.symm) hk
  · have htrailing : elementsPb (sample (encode .enc) s) ≤ i := by rwa [elementsPb, hcount]
    exact readPb_operationWork_enc_trailing hd (begin (encode .enc) s) htrailing
  · rw [finish_cnt, cnt_operationWork_enc (s := begin (encode .enc) s) hd hs, hencCount]
  · obtain ⟨m, hframe⟩ := operationWork_enc_frame hd (begin (encode .enc) s)
    rw [hframe]
    rfl

/-- Settles O34: `FXE` leaves the maximum its significand, so the quotient is a power of two. -/
theorem encodeFactorIsExactPower : Obligations.EncodeFactorIsExactPower := by
  unfold Obligations.EncodeFactorIsExactPower
  intro m hfin h
  have hlo := ex_of_passing h
  have hhi := (isFinite_iff m).mp hfin
  exact ⟨hlo, hhi, signBit_of_passing hfin h, value_fmul_fxeMantissa_c256 m, value_encFactor_quotient hlo hhi,
    encFactor_eq_shift hlo hhi, value_encFactor hlo hhi⟩

/-- Settles O35: rounding the product keeps its whole part below 2^128; a component that is not negative is
bounded by the maximum, so what overflows is negative. -/
theorem encodedColourClosedForm : Obligations.EncodedColourClosedForm := by
  unfold Obligations.EncodedColourClosedForm
  intro r g b hfin h
  have hlo := ex_of_passing h
  have hhi := (isFinite_iff _).mp hfin
  have hsign := signBit_of_passing hfin h
  rw [encodedColours_eq h, List.forall_mem_map]
  intro c hmem v
  refine ⟨fun hc hlt => encColour_of_lt hlo hhi hc hlt, fun hc hge => ?_, fun hc => ?_,
    fun hc hnonneg => ?_, fun hc => ?_⟩
  · exact encColour_overflow hlo hhi hsign hc (value_le_max3 hfin hmem hc) hge
  · have hcolour := encColour_negInf hlo hhi
    rwa [← hc] at hcolour
  · have hle := value_le_max3 hfin hmem hc
    obtain ⟨-, hlt⟩ := scaled_value_bounds (by omega) hsign hnonneg hle
    exact ⟨hlt, encColour_eq_floor hlo hhi hsign hc hnonneg hle⟩
  · have hmax : c = max3 r g b := hc
    show 128 ≤ (encColour (max3 r g b) c).toNat
    rw [hmax]
    exact le_encColour_max hlo hhi hsign

/-- Settles O36. -/
theorem encodedExponentByte : Obligations.EncodedExponentByte := by
  unfold Obligations.EncodedExponentByte
  intro r g b
  refine ⟨fun h => by rw [encPx_of_passing h], fun h hhi => ⟨le_encPx_e h hhi, encPx_e_eq_fxeExponent h hhi⟩,
    fun h hex => encPx_e_of_ex_254 h hex, fun hex h => encPx_e_of_ex_255 h hex, ?_⟩
  cases h : ltThresh (max3 r g b) with
  | true => rw [encPx_of_below h]; exact .inl (by decide)
  | false =>
    have hlo := ex_of_passing h
    have hhi := ex_lt (max3 r g b)
    rw [encPx_e_toNat h]
    omega

/-- Settles O38: the factor of an infinite maximum is +0.0 and that of a NaN a NaN, and a NaN component stays
one under any factor. -/
theorem encodedNonFinitePixels : Obligations.EncodedNonFinitePixels := by
  unfold Obligations.EncodedNonFinitePixels
  intro r g b
  refine ⟨fun hinf => ?_, fun hnan => ?_, fun _ hnan h => ?_, fun _ hnan h => ?_, fun hfin h => ?_⟩
  · have h : ltThresh (max3 r g b) = false := by rw [hinf]; decide
    have hex : (ex (max3 r g b)).toNat = 255 := by rw [hinf]; decide
    refine ⟨encPx_e_of_ex_255 h hex, ?_⟩
    rw [encodedColours_eq h, List.forall_mem_map, hinf]
    exact fun c _ => ⟨encColour_pinf_of_finite, encColour_pinf_of_inf⟩
  · have hmax := max3_of_nan hnan g b
    have h : ltThresh (max3 r g b) = false := by simp [ltThresh, hmax, hnan]
    rw [encPx_of_passing h, hmax, ((isNan_iff r).mp hnan).1]
    simp only [encColour_of_nan (.inl hnan)]
    rfl
  · rw [encPx_of_passing h]
    exact encColour_of_nan (.inr hnan)
  · rw [encPx_of_passing h]
    exact encColour_of_nan (.inr hnan)
  · rw [encodedColours_eq h, List.forall_mem_map]
    rintro c _ rfl
    exact encColour_negInf (ex_of_passing h) ((isFinite_iff _).mp hfin)

/-- Settles O39: the byte is the number of whole quanta in the component, and decoding multiplies by the
quantum. -/
theorem roundTripRoundsDown : Obligations.RoundTripRoundsDown := by
  unfold Obligations.RoundTripRoundsDown
  intro r g b hcomponents h hrange quantum
  have hlo := ex_of_passing h
  have hhi : (ex (max3 r g b)).toNat ≤ 253 := by rw [ex_toNat]; omega
  have hfin : isFinite (max3 r g b) = true := (isFinite_iff _).mpr (by omega)
  have hsign := signBit_of_passing hfin h
  obtain ⟨hle, hlt⟩ := quantum_bounds (by omega) hsign
  refine ⟨?_, hle, hlt, decPx_alpha (encPx_e_ne_zero h hhi)⟩
  rw [decodedColours_eq h hhi, List.forall_mem_map]
  intro c hmem
  obtain ⟨hc, hcsign⟩ := hcomponents c hmem
  have hvalue := value_roundTrip h hhi hsign hc (value_nonneg_of_sign hcsign) (value_le_max3 hfin hmem hc)
  refine ⟨hvalue, ?_⟩
  simp only [hvalue]
  have hpos : 0 < quantum := zpow_pos two_pos _
  exact ⟨sub_nonneg.mp (Int.sub_floor_div_mul_nonneg (value c) hpos), Int.sub_floor_div_mul_lt (value c) hpos⟩

/-- Settles O40: both kinds of maximum have exponent byte 0, the zero sentinel. -/
theorem roundTripOfExtremesIsZero : Obligations.RoundTripOfExtremesIsZero := by
  unfold Obligations.RoundTripOfExtremesIsZero
  intro r g b h
  rcases h with hbelow | ⟨hlo, hhi⟩
  · exact decPx_of_zero (by rw [encPx_of_below hbelow])
  · exact decPx_of_zero (encPx_e_of_ex_254 (ltThresh_of_range hlo hhi) (ex_eq_254_of_range hlo hhi))

/-- Settles O37. -/
theorem belowThresholdEncodesZeroPixel : Obligations.BelowThresholdEncodesZeroPixel := by
  unfold Obligations.BelowThresholdEncodesZeroPixel
  exact fun r g b => encPx_of_below

end Sys2Proof.Settled
end

section
/-! `FMUL` and `FDIV` on every class of operands (R185 to R187): the special cases, the sign, and the exact
result that `roundMag` rounds. -/

namespace Sys2Proof.Machine

/-! ### Any result (R185, R187) -/

/-- What `FMUL` can give: a NaN, or a magnitude with the exclusive-or sign. -/
theorem fmul_cases (a b : Word) : isNan (fmul a b) = true ∨
    ∃ low, low ≤ 0x7F800000 ∧ fmul a b = pack (signBit a != signBit b) low := by
  unfold fmul
  split_ifs
  · exact .inl (isNan_asNan _)
  · exact .inl isNan_defaultNan
  · exact .inr ⟨_, le_rfl, rfl⟩
  · exact .inr ⟨_, roundMag_le _ _, rfl⟩

theorem fdiv_cases (a b : Word) : isNan (fdiv a b) = true ∨
    ∃ low, low ≤ 0x7F800000 ∧ fdiv a b = pack (signBit a != signBit b) low := by
  unfold fdiv
  split_ifs
  · exact .inl (isNan_asNan _)
  · exact .inl isNan_defaultNan
  · exact .inr ⟨_, Nat.zero_le _, rfl⟩
  · exact .inr ⟨_, le_rfl, rfl⟩
  · exact .inr ⟨_, roundMag_le _ _, rfl⟩

/-- A result of that kind that is no NaN has the sign. -/
theorem signBit_of_nan_or_pack {r : Word} {sign : Bool}
    (h : isNan r = true ∨ ∃ low, low ≤ 0x7F800000 ∧ r = pack sign low) (hnan : isNan r = false) :
    signBit r = sign := by
  rcases h with h | ⟨low, hlow, rfl⟩
  · rw [h] at hnan; cases hnan
  · exact signBit_pack sign (by omega)

/-! ### Special operands (R185 to R187) -/

/-- Only the NaN of a NaN operand may depend on the order of the operands. -/
theorem fmul_comm {a b : Word} (ha : isNan a = false) (hb : isNan b = false) : fmul a b = fmul b a := by
  simp only [fmul, ha, hb, Bool.or_self, Bool.false_eq_true, if_false, bne_comm (a := signBit b),
    Nat.mul_comm (mag b), Bool.and_comm (isZero b), Bool.and_comm (isInf b), Bool.or_comm (isInf b),
    Bool.or_comm (isInf a && isZero b)]

theorem isInf_fmul_of_inf {a b : Word} (ha : isInf a = true) (hb : isNan b = false) (hz : isZero b = false) :
    isInf (fmul a b) = true := by
  have heq : fmul a b = pack (signBit a != signBit b) 0x7F800000 := by
    simp [fmul, ha, isNan_of_inf ha, isZero_of_inf ha, hb, hz]
  rw [heq, isInf_pack]

theorem fdiv_of_zeros {a b : Word} (ha : isZero a = true) (hb : isZero b = true) : fdiv a b = defaultNan := by
  simp [fdiv, ha, hb, isNan_of_zero ha, isNan_of_zero hb]

theorem fdiv_of_infs {a b : Word} (ha : isInf a = true) (hb : isInf b = true) : fdiv a b = defaultNan := by
  simp [fdiv, ha, hb, isNan_of_inf ha, isNan_of_inf hb]

theorem isZero_pack (sign : Bool) : isZero (pack sign 0) = true := by
  rw [← mag_eq_zero_iff, mag_pack sign (by decide)]
  rfl

theorem isInf_of_zero {a : Word} (h : isZero a = true) : isInf a = false := by
  obtain ⟨hex, -⟩ := (isZero_iff a).mp h
  rw [← Bool.not_eq_true, isInf_iff]
  omega

/-- An infinity divided by a number. -/
theorem isInf_fdiv_of_inf {a b : Word} (ha : isInf a = true) (hb : isFinite b = true) :
    isInf (fdiv a b) = true := by
  have heq : fdiv a b = pack (signBit a != signBit b) 0x7F800000 := by
    simp [fdiv, ha, isNan_of_inf ha, isZero_of_inf ha, isNan_of_finite hb, isInf_of_finite hb]
  rw [heq, isInf_pack]

/-- A number that is not zero divided by a zero. -/
theorem isInf_fdiv_of_zero {a b : Word} (ha : isFinite a = true) (hz : isZero a = false)
    (hb : isZero b = true) : isInf (fdiv a b) = true := by
  have heq : fdiv a b = pack (signBit a != signBit b) 0x7F800000 := by
    simp [fdiv, hb, hz, isNan_of_finite ha, isInf_of_finite ha, isNan_of_zero hb, isInf_of_zero hb]
  rw [heq, isInf_pack]

/-! ### Finite operands: the exact result and its rounding (R182) -/

theorem value_mul_eq_exactOf (a b : Word) :
    value a * value b = exactOf (signBit a != signBit b) (mag a * mag b) (2 ^ 149) := by
  rw [exactOf, value_eq_mag, value_eq_mag, sign_pow_bne]
  push_cast
  ring

theorem sign_pow_inv (s : Bool) : ((-1 : ℚ) ^ s.toNat)⁻¹ = (-1) ^ s.toNat :=
  inv_eq_of_mul_eq_one_left (sign_pow_mul_self s)

theorem value_div_eq_exactOf (a b : Word) :
    value a / value b = exactOf (signBit a != signBit b) (mag a * 2 ^ 149) (mag b) := by
  have hinv := sign_pow_inv (signBit b)
  rw [exactOf, value_eq_mag, value_eq_mag, sign_pow_bne]
  push_cast
  simp only [div_eq_mul_inv, mul_inv, hinv, inv_inv]
  ring

theorem fmul_roundsTo {a b : Word} (ha : isFinite a = true) (hb : isFinite b = true) :
    RoundsTo (value a * value b) (fmul a b) := by
  rw [fmul_of_finite ha hb, value_mul_eq_exactOf]
  exact roundsTo_roundMag (by positivity)

theorem fdiv_roundsTo {a b : Word} (ha : isFinite a = true) (hb : isFinite b = true) (hz : isZero b = false) :
    RoundsTo (value a / value b) (fdiv a b) := by
  rw [fdiv_of_finite ha hb hz, value_div_eq_exactOf]
  exact roundsTo_roundMag (mag_pos_of_not_zero hz)

end Sys2Proof.Machine
end

section
/-! The conversion of a byte and the byte cast on every pattern (R184, R190). -/

namespace Sys2Proof.Machine

/-! ### A byte as a pattern (R184) -/

theorem value_u8ToF32 (n : Byte) : value (u8ToF32 n) = n.toNat := by
  have hunit : (2 : ℚ) ^ 149 ≠ 0 := by positivity
  rw [value_eq_mag, signBit_u8ToF32, mag_u8ToF32, Bool.toNat_false, pow_zero, one_mul]
  push_cast
  exact mul_div_cancel_right₀ _ hunit

theorem u8ToF32_fields {n : Byte} (h : 1 ≤ n.toNat) :
    (ex (u8ToF32 n)).toNat = 127 + Nat.log2 n.toNat ∧
    (fracField (u8ToF32 n)).toNat = (n.toNat - 2 ^ Nat.log2 n.toNat) * 2 ^ (23 - Nat.log2 n.toNat) := by
  have hlog := log2_byte_le n
  have hlow := scaledByteLow_finite (x := 127) h (by omega)
  rw [u8ToF32_of_pos h, ex_pack _ (by omega), frac_pack _ (by omega)]
  exact ⟨scaledByteLow_div h 127, scaledByteLow_mod h 127⟩

/-! ### The cast of a large number (R190) -/

theorem abs_value (a : Word) : |value a| = (mag a : ℚ) / 2 ^ 149 := by
  rw [value_eq_mag, mul_div_assoc, abs_signed _ (by positivity)]

/-- From 2^31 on the spacing of the numbers is at least 256, that is 2^157 units. -/
theorem dvd_mag_of_large {a : Word} (h : 2 ^ 31 ≤ |value a|) : 2 ^ 157 ∣ mag a := by
  have hlarge : 2 ^ 31 * 2 ^ 149 ≤ mag a := by
    rw [abs_value, le_div_iff₀ (by positivity)] at h
    exact_mod_cast h
  obtain ⟨shift, r, -, hr, -, hmag⟩ := exists_count (a.toNat % 2 ^ 31)
  rw [mag_eq_magOfLow, hmag] at hlarge ⊢
  have hshift : 157 ≤ shift := by
    by_contra hlt
    have hsmall : r * 2 ^ shift ≤ r * 2 ^ 156 :=
      Nat.mul_le_mul_left r (Nat.pow_le_pow_right (by decide) (by omega))
    omega
  exact (Nat.pow_dvd_pow 2 hshift).mul_left r

theorem ofInt_eq_zero_of_dvd {z : Int} (h : 256 ∣ z) : BitVec.ofInt 8 z = 0 := by
  apply BitVec.eq_of_toNat_eq
  rw [BitVec.toNat_ofInt, BitVec.ofNat_eq_ofNat, BitVec.toNat_zero]
  omega

theorem f2u8_of_large {a : Word} (hfin : isFinite a = true) (h : 2 ^ 31 ≤ |value a|) : f2u8 a = 0 := by
  obtain ⟨k, hk⟩ := dvd_mag_of_large h
  have hwhole : mag a / 2 ^ 149 = 256 * k := by omega
  have hcast : ((2 ^ 149 : Nat) : ℚ) = 2 ^ 149 := Nat.cast_pow 2 149
  rw [f2u8_of_finite hfin, value_eq_mag, mul_div_assoc, ← hcast, truncate_signed, hwhole]
  apply ofInt_eq_zero_of_dvd
  split <;> omega

end Sys2Proof.Machine
end

section
/-! `FGT`, the threshold and `MAX3` on every class of patterns (R188, R189, R191). -/

namespace Sys2Proof.Machine

/-! ### The order with the infinities as its ends (R188) -/

theorem fgt_of_nan {a b : Word} (h : isNan a = true ∨ isNan b = true) : fgt a b = false := by
  rcases h with h | h <;> simp [fgt, h]

theorem fgt_eq_orderKey_lt {a b : Word} (ha : isNan a = false) (hb : isNan b = false) :
    fgt a b = decide (orderKey b < orderKey a) := by
  simp [fgt, ha, hb]

theorem fgt_iff_value_lt {a b : Word} (ha : isFinite a = true) (hb : isFinite b = true) :
    fgt a b = true ↔ value b < value a := by
  rw [fgt_eq_orderKey_lt (isNan_of_finite ha) (isNan_of_finite hb), decide_eq_true_iff, ← not_le, ← not_le,
    value_le_iff]

theorem orderKey_of_sign_clear {b : Word} (h : signBit b = false) : orderKey b = b.toNat := by
  rw [signBit_eq, decide_eq_false_iff_not] at h
  rw [orderKey, signBit_eq, decide_eq_false h, Nat.mod_eq_of_lt (by omega)]
  rfl

theorem orderKey_of_sign_set {b : Word} (h : signBit b = true) :
    orderKey b = -((b.toNat % 2 ^ 31 : Nat) : Int) := by
  rw [orderKey, h]
  rfl

theorem orderKey_pinf : orderKey 0x7F800000 = 0x7F800000 := by decide

theorem orderKey_ninf : orderKey 0xFF800000 = -0x7F800000 := by decide

/-- The finite patterns are strictly between the infinities. -/
theorem abs_orderKey_of_finite {b : Word} (h : isFinite b = true) : |orderKey b| < 0x7F800000 := by
  have hlow := low_lt_of_finite h
  unfold orderKey
  split <;> rw [abs_lt] <;> omega

/-- Without the NaNs, the patterns with the sign clear end at +infinity. -/
theorem signBit_eq_false_iff_of_not_nan {m : Word} (h : isNan m = false) :
    signBit m = false ↔ m.toNat ≤ 0x7F800000 := by
  rw [← Bool.not_eq_true, isNan_iff] at h
  have hex := ex_lt m
  have hfrac := frac_lt m
  have hpattern := pattern_toNat m
  cases hsign : signBit m with
  | false => rw [hsign, Bool.toNat_false] at hpattern; simp only [true_iff]; omega
  | true => rw [hsign, Bool.toNat_true] at hpattern; simp only [Bool.true_eq_false, false_iff]; omega

/-! ### The threshold as a comparison (R189) -/

theorem ltThresh_of_nan {m : Word} (h : isNan m = true) : ltThresh m = false := by
  simp [ltThresh, h]

theorem orderKey_tHi : orderKey tHi = 0x0A4FB11F := by decide

/-- The test on the pattern is the comparison with `T_HI`. -/
theorem ltThresh_eq_fgt (m : Word) : ltThresh m = fgt tHi m := by
  cases hnan : isNan m with
  | true => rw [ltThresh_of_nan hnan, fgt_of_nan (.inr hnan)]
  | false =>
    rw [fgt_eq_orderKey_lt (by decide) hnan, orderKey_tHi]
    cases hsign : signBit m with
    | true =>
      have hkey : orderKey m < 0x0A4FB11F := by rw [orderKey_of_sign_set hsign]; omega
      simp [ltThresh, hnan, hsign, hkey]
    | false =>
      simp only [ltThresh, hnan, hsign, orderKey_of_sign_clear hsign, Bool.not_false, Bool.true_and,
        Bool.false_or, decide_eq_decide]
      omega

theorem value_tHi : value tHi = 13611295 / 2 ^ 130 := by
  have hsign : signBit tHi = false := by decide
  have hmag : mag tHi = 13611295 * 2 ^ 19 := by decide
  rw [value_eq_mag, hsign, hmag]
  norm_num

theorem value_below_tHi : value 0x0A4FB11E = 13611294 / 2 ^ 130 := by
  have hsign : signBit 0x0A4FB11E = false := by decide
  have hmag : mag 0x0A4FB11E = 13611294 * 2 ^ 19 := by decide
  rw [value_eq_mag, hsign, hmag]
  norm_num

/-- Every number above the pattern before `T_HI` and not above `T_HI` gives the same test. -/
theorem ltThresh_iff_value_lt {m : Word} (hfin : isFinite m = true) {q : ℚ} (hlo : 13611294 / 2 ^ 130 < q)
    (hhi : q ≤ 13611295 / 2 ^ 130) : ltThresh m = true ↔ value m < q := by
  have hkey : orderKey 0x0A4FB11E = 0x0A4FB11E := by decide
  rw [← value_below_tHi] at hlo
  rw [← value_tHi] at hhi
  rw [ltThresh_eq_fgt]
  constructor
  · intro h
    obtain ⟨-, -, hlt⟩ := (fgt_iff _ _).mp h
    rw [orderKey_tHi] at hlt
    exact ((value_le_iff _ _).mpr (by omega : orderKey m ≤ orderKey 0x0A4FB11E)).trans_lt hlo
  · exact fun h => (fgt_iff_value_lt (by decide) hfin).mpr (h.trans_le hhi)

/-! ### The chain of the maximum (R191) -/

theorem greater_eq_or (a b : Word) : greater a b = a ∨ greater a b = b := by
  unfold greater
  split
  · exact .inr rfl
  · exact .inl rfl

theorem max3_mem (r g b : Word) : max3 r g b = r ∨ max3 r g b = g ∨ max3 r g b = b := by
  rw [max3_eq_greater]
  rcases greater_eq_or (greater r g) b with h | h <;> rw [h]
  · exact (greater_eq_or r g).imp_right .inl
  · exact .inr (.inr rfl)

theorem isNan_max3 {r : Word} (h : isNan r = false) (g b : Word) : isNan (max3 r g b) = false :=
  isNan_greater (isNan_greater h g) b

/-- No component is above the maximum, NaN or not. -/
theorem fgt_max3 {r g b c : Word} (h : isNan (max3 r g b) = false) (hc : c ∈ [r, g, b]) :
    fgt c (max3 r g b) = false := by
  rw [← Bool.not_eq_true, fgt_iff]
  rintro ⟨hnan, -, hlt⟩
  exact absurd (orderKey_le_max3 h hc hnan) (not_le.mpr hlt)

end Sys2Proof.Machine
end

section
/-! The statements about the floating-point primitives (spec/45_numerics.md). -/

namespace Sys2Proof.Settled
open Sys2Proof.Machine

/-- Settles O18: a byte that is not 0 is itself times `2^0`, with its leading bit in the exponent field. -/
theorem byteConvertsExactly : Obligations.ByteConvertsExactly := by
  unfold Obligations.ByteConvertsExactly
  exact fun n => ⟨isFinite_u8ToF32 n, signBit_u8ToF32 n, value_u8ToF32 n,
    fun h => u8ToF32_of_zero (by rw [h]; rfl), u8ToF32_fields⟩

/-- Settles O19: the product of finite operands is `roundMag` of the exact one, and every other case is a
branch of `FMUL`. -/
theorem fmulRoundsToNearest : Obligations.FmulRoundsToNearest := by
  unfold Obligations.FmulRoundsToNearest
  intro a b
  refine ⟨isNan_fmul, fun ha hb => ?_, isNan_defaultNan, fun ha hb hz => ?_, fmul_roundsTo,
    signBit_of_nan_or_pack (fmul_cases a b)⟩
  · have hinvalid := fmul_of_inf_zero hb ha
    exact ⟨(fmul_comm (isNan_of_zero ha) (isNan_of_inf hb)).trans hinvalid, hinvalid⟩
  · have hinf := isInf_fmul_of_inf ha hb hz
    exact ⟨hinf, by rwa [fmul_comm hb (isNan_of_inf ha)]⟩

/-- Settles O20: the quotient of finite operands is `roundMag` of the exact one, and every other case is a
branch of `FDIV`. -/
theorem fdivRoundsToNearest : Obligations.FdivRoundsToNearest := by
  unfold Obligations.FdivRoundsToNearest
  exact fun a b => ⟨isNan_fdiv, fdiv_of_zeros, fdiv_of_infs,
    fun ha hb => by rw [fdiv_of_inf ha hb, isZero_pack], isInf_fdiv_of_inf, isInf_fdiv_of_zero, fdiv_roundsTo,
    signBit_of_nan_or_pack (fdiv_cases a b)⟩

/-- Settles O21: `FGT` compares the places in the order of R181, which is the order of the numbers with the
infinities as its ends. -/
theorem fgtOrdersValues : Obligations.FgtOrdersValues := by
  unfold Obligations.FgtOrdersValues
  intro a b
  refine ⟨fgt_of_nan, fgt_iff_value_lt, fun hb => ?_, by decide, by decide, ?_, fun ha hb hsa hsb => ?_⟩
  · obtain ⟨hlow, hhigh⟩ := abs_lt.mp (abs_orderKey_of_finite hb)
    have hnan := isNan_of_finite hb
    have hpnan : isNan 0x7F800000 = false := by decide
    have hnnan : isNan 0xFF800000 = false := by decide
    simp only [fgt_eq_orderKey_lt, hnan, hpnan, hnnan, orderKey_pinf, orderKey_ninf, decide_eq_true_iff,
      decide_eq_false_iff_not]
    omega
  · simp [fgt]
  · rw [fgt_eq_orderKey_lt ha hb, orderKey_of_sign_clear hsa, orderKey_of_sign_clear hsb, decide_eq_true_iff,
      Nat.cast_lt]

/-- Settles O22: the test on the pattern is the comparison with `T_HI`, and both readings of the literal lie
between `T_HI` and the pattern before it. -/
theorem thresholdComparesWithTenToMinus32 : Obligations.ThresholdComparesWithTenToMinus32 := by
  unfold Obligations.ThresholdComparesWithTenToMinus32
  refine ⟨fun m h => ltThresh_iff_value_lt h (by norm_num) (by norm_num), fun m => ltThresh_of_nan, by decide,
    by decide, fun m h => ?_, fun m h => ltThresh_iff_value_lt h (by norm_num) (by norm_num), ltThresh_eq_fgt⟩
  rw [ltThresh_eq_false_iff h, signBit_eq_false_iff_of_not_nan h, and_comm]

/-- Settles O23: from 2^31 on the number is a multiple of 256. -/
theorem byteCastTruncatesAndWraps : Obligations.ByteCastTruncatesAndWraps := by
  unfold Obligations.ByteCastTruncatesAndWraps
  exact fun a => ⟨f2u8_of_finite, f2u8_of_large, f2u8_of_nan, fun h => h ▸ f2u8_of_infinity false,
    fun h => h ▸ f2u8_of_infinity true⟩

/-- Settles O24: the order along the chain only rises, and a comparison with a NaN never moves it. -/
theorem maxOfThree : Obligations.MaxOfThree := by
  unfold Obligations.MaxOfThree
  intro r g b
  refine ⟨rfl, max3_mem r g b, fun hr _ _ => ?_, fun h => max3_of_nan h g b, fun h => isNan_max3 h g b⟩
  have hmax := isNan_max3 hr g b
  exact ⟨fgt_max3 hmax (by simp), fgt_max3 hmax (by simp), fgt_max3 hmax (by simp)⟩

end Sys2Proof.Settled
end

section
/-! The idle codec: with neither agent having work to do, the machine rests (R212, R220). -/

namespace Sys2Proof.Settled
open Sys2Proof.Machine

/-- Settles O57: with no host action to come the codec moves, and an idle codec leaves its state. -/
theorem idleCodecHolds : Obligations.IdleCodecHolds := by
  unfold Obligations.IdleCodecHolds
  intro s hinputs hidle
  calc step s = .next (codecStep s) := step_nil hinputs
    _ = .next s := by rw [codecStep_idle hidle]

end Sys2Proof.Settled
end
